-- ==== Sys2Proof/Word.lean ====
section
/-! DEFINITION. The word of the machine: a signed 64-bit integer (spec R5), held as 64 bits and
read as a signed integer by `BitVec.toInt`. -/

namespace Sys2Proof

/-- R5: the unit of memory, input and output, a value in -2^63 .. 2^63 - 1. -/
abbrev Word := BitVec 64

end Sys2Proof
end

