-- ==== Sys2Proof/Config.lean ====
section
/-! DEFINITION. The implementation parameters of spec R6 that are plain numbers.

The other parameters of R6 are choices of behaviour. Each is coded where the behaviour is, at the
value R6 gives it: OVERFLOW in Machine/Ops.lean (`wrap64`), CODES_5_TO_8 and SURPLUS_DIGITS in
Decode.lean (`decodeNat`, `Instr.code`), LT_DIRECTION in Machine/Flags.lean (`ltWord`), GROW_POLICY
in Machine/Ops.lean (`Memory.zeroFill`). MEM_CAPACITY, IN_FIFO_DEPTH, OUT_FIFO_DEPTH and STEP_BOUND
are "unbounded" or "none" there, so nothing codes them (assumption log 17). -/

namespace Sys2Proof

/-- R6, R24: the smallest valid address. -/
def Config.addrMin : Int := 0

/-- R6, R24: the largest valid address, 2^63 - 1. -/
def Config.addrMax : Int := 9223372036854775807

/-- R9: the largest current length, one more than the largest valid address. -/
def Config.maxLen : Nat := 9223372036854775808

/-- R27, R28: what an address reads as when nothing has been stored there. -/
def Config.unlisted : Word := 0

end Sys2Proof
end

