-- ==== Sys2Proof/Machine/State.lean ====
section
/-! DEFINITION. The state of the machine as plain data: the six elements of a VM instance (R9), and
two fields of the model's own at its boundary, which hold whose move it is and the host's
transactions (R4, R83; assumption log 4). -/

namespace Sys2Proof.Machine

/-- R97: the four error kinds, a closed set. A step that meets one TAKES it, as a next state
(`raise`, R105): no step of this model ends in `Host.Outcome.fault` (assumption log 5). -/
inductive Fault where
  /-- R98. Raised by the decode phase: a negative word or an unknown opcode. Safe for a negative
  word (assumption log 11). -/
  | invalidOpcode
  /-- R99. Raised by the decode phase: a used mode digit above 2. Safe. -/
  | invalidMode
  /-- R100. Raised by the fetch, the operand fetch, `Src` and `Dst`, and answered by the host's peek
  and poke: an address outside 0 .. 2^63 - 1. Safe (assumption log 13). -/
  | invalidAddress
  /-- R101. Raised by `Dst` for ADD, MUL, LT, EQ and IN: a destination in Immediate mode. Safe. -/
  | destinationImmediate
deriving DecidableEq, Repr

/-- The reasons for which the model would give an instruction no meaning. -/
inductive Refusal where
  /-- Raised by nothing: every instruction of the table has its meaning. Safe. -/
  | notModelled (mnemonic : String)
deriving DecidableEq, Repr

/-- R75: the three kinds of outcome of `run()`. -/
inductive RunOutcome where
  /-- R70, R76. -/
  | halted
  /-- R61, R77: a suspension, not an error (R103). -/
  | awaitingInput
  /-- R79, R105. -/
  | fatal (kind : Fault)
deriving DecidableEq, Repr

/-- R83: the host's transactions and their arguments; the list is closed (R91). -/
inductive Transaction where
  | build (image : List Word)
  | peek (a : Word)
  | poke (a v : Word)
  | pushInput (v : Word)
  | drainOutput
  | clearOutput
  | run
deriving DecidableEq, Repr

/-- R83, R92: what a transaction returns to the host. -/
inductive Reply where
  /-- Nothing, or for build the new instance: build, poke, push_input, clear_output. -/
  | done
  /-- The word of a peek. -/
  | word (v : Word)
  /-- A peek or poke that failed. -/
  | error (kind : Fault)
  /-- The sequence drain_output returns, oldest word first. -/
  | output (q : List Word)
  /-- The outcome of a run. -/
  | outcome (o : RunOutcome)
deriving DecidableEq, Repr

/-- R4, R90: whether a `run()` is in progress (the engine's move), or none is and the last
transaction returned this (the host's move). The model's own field (assumption log 4). -/
inductive Call where
  | running
  | returned (r : Reply)
deriving DecidableEq, Repr

/-- One word of memory at a word address (R10, R23, R29; assumption log 1). -/
abbrev Cell := Nat × Word

/-- R9 to R11: the memory and its current length. `cells` lists the words that differ from what an
unlisted address reads as. -/
structure Memory where
  /-- `Mem` (R10). -/
  cells : List Cell
  /-- `MemLen` (R11). -/
  len : Nat
deriving DecidableEq, Repr

/-- The canonical form of memory: addresses strictly rising, no cell that holds what an unlisted
address reads as, and every cell below the current length (assumption log 2). -/
abbrev Memory.wf (m : Memory) : Prop :=
  m.cells.Pairwise (fun c d => c.1 < d.1) ∧ (∀ c ∈ m.cells, c.2 ≠ Config.unlisted) ∧
    ∀ c ∈ m.cells, c.1 < m.len

/-- R9: the complete state. The first five fields are the instance's six elements (`mem` holds two of
them); `call` and `requests` are the model's own. -/
structure State where
  /-- `Mem` and `MemLen` (R10, R11). -/
  mem : Memory
  /-- `PC` (R12). -/
  pc : Word
  /-- `RB` (R13). -/
  rb : Word
  /-- `InQ`, oldest word first (R14). -/
  inQ : List Word
  /-- `OutQ`, oldest word first (R15). -/
  outQ : List Word
  /-- Whose move it is, and what the last transaction returned (R4, R75, R83). -/
  call : Call
  /-- The host's transactions still to come, oldest first (R83). -/
  requests : List Transaction
deriving DecidableEq, Repr

/-- R21, R113: the state right after `build([])`, the machine's only reset with nothing in its image
(assumption log 20). -/
def State.reset : State where
  mem := { cells := [], len := 0 }
  pc := 0
  rb := 0
  inQ := []
  outQ := []
  call := .returned .done
  requests := []

end Sys2Proof.Machine
end

