-- ==== Sys2Proof/Machine/Ops.lean ====
section
/-! DEFINITION. The named operations over memory and registers, taking an error, and starting or
resuming a run. -/

namespace Sys2Proof.Machine

/-- R7: the word congruent to `r` modulo 2^64 (R59 OVERFLOW = wrap, DESIGN CHOICE of the spec,
assumption log 8). -/
def wrap64 (r : Int) : Word := BitVec.ofInt 64 r

/-! ### Memory -/

/-- R24: `ValidAddr`, on an exact integer (assumption log 13). -/
def validAddr (a : Int) : Except Fault Nat :=
  if a < Config.addrMin then .error .invalidAddress
  else if a > Config.addrMax then .error .invalidAddress
  else .ok a.toNat

/-- The word a list of cells holds at an address. -/
def lookupCell : List Cell → Nat → Word
  | [], _ => Config.unlisted
  | (b, v) :: rest, a => if b = a then v else lookupCell rest a

/-- A new cell, put where the addresses go on rising. -/
def insertCell : List Cell → Nat → Word → List Cell
  | [], a, v => [(a, v)]
  | (b, u) :: rest, a, v => if a < b then (a, v) :: (b, u) :: rest else (b, u) :: insertCell rest a v

/-- The cells with address `a` holding `v`; a word that an unlisted address reads as is not listed. -/
def setCell (cells : List Cell) (a : Nat) (v : Word) : List Cell :=
  let others := cells.filter (fun c => c.1 ≠ a)
  if v = Config.unlisted then others else insertCell others a v

/-- R27 at a valid address: the stored word below the current length, 0 at or beyond it. -/
def Memory.read (m : Memory) (a : Nat) : Word :=
  if a < m.len then lookupCell m.cells a else Config.unlisted

/-- R28, the growth: a store at or beyond the current length makes the length exactly `a + 1`
(assumption log 3) and every new cell 0. -/
def Memory.zeroFill (m : Memory) (a : Nat) : Memory :=
  if a < m.len then m
  else { cells := m.cells.filter (fun c => c.1 < m.len), len := a + 1 }

/-- R28 at a valid address: grow if need be, then store. -/
def Memory.write (m : Memory) (a : Nat) (v : Word) : Memory :=
  let g := m.zeroFill a
  { g with cells := setCell g.cells a v }

/-- R27: `MemRead`, the source's `load`. -/
def memRead (m : Memory) (a : Int) : Except Fault Word := do
  let n ← validAddr a
  return m.read n

/-- R28: `MemWrite`, the source's `store`. -/
def memWrite (m : Memory) (a : Int) (v : Word) : Except Fault Memory := do
  let n ← validAddr a
  return m.write n v

/-- The cells of an image whose first word has address `a`. -/
def imageCells : Nat → List Word → List Cell
  | _, [] => []
  | a, v :: rest =>
    if v = Config.unlisted then imageCells (a + 1) rest else (a, v) :: imageCells (a + 1) rest

/-- R21: the memory that holds exactly an image. -/
def Memory.ofImage (image : List Word) : Memory :=
  { cells := imageCells 0 image, len := image.length }

/-! ### One update for each field -/

def State.setMem (s : State) (m : Memory) : State := { s with mem := m }

def State.setPc (s : State) (v : Word) : State := { s with pc := v }

def State.setRb (s : State) (v : Word) : State := { s with rb := v }

def State.setInQ (s : State) (q : List Word) : State := { s with inQ := q }

def State.setOutQ (s : State) (q : List Word) : State := { s with outQ := q }

def State.setCall (s : State) (c : Call) : State := { s with call := c }

def State.setRequests (s : State) (l : List Transaction) : State := { s with requests := l }

/-- R12: `PC <- wrap64(PC + n)`, the advance by an encoded width (assumption log 14). -/
def State.advance (s : State) (n : Nat) : State := s.setPc (wrap64 (s.pc.toInt + n))

/-! ### Leaving a run and entering one -/

/-- R74, R75: the current `run()` returns this outcome to the host; nothing of the instance changes
(R72). -/
def returnRun (o : RunOutcome) (s : State) : State := s.setCall (.returned (.outcome o))

/-- R105: TAKING AN ERROR. The step ends without writing any state of the instance, and the current
`run()` returns `Fatal(kind)`. Nothing is saved: there is no register to save in, no mode, mask or
handler address (R102, R106). -/
def raise (kind : Fault) (s : State) : State := returnRun (.fatal kind) s

/-- R107, R78, R90: THE RETURN. There is no instruction for it: the host calls `run()` again and the
engine goes on with a fetch at the unchanged `PC`. The first run starts the same way (R74). A state with
a run in progress it leaves as it is: no host transaction (R118, U9; DESIGN CHOICE, assumption log
21). -/
def resume (s : State) : State := s.setCall .running

/-- R73: how an execute phase ends. It resolves its operands before it changes anything, so it gives
either the state of a completed instruction or the first error it met, which is taken. -/
def settle (s : State) (r : Except Fault State) : Host.Outcome State Fault Refusal :=
  match r with
  | .ok t => .next t
  | .error k => .next (raise k s)

/-- R97: the optional numbering of the kinds; no rule depends on it (assumption log 23). -/
def Fault.number : Fault → Nat
  | .invalidOpcode => 1
  | .invalidMode => 2
  | .invalidAddress => 3
  | .destinationImmediate => 4

end Sys2Proof.Machine
end

