-- ==== Sys2Proof/Machine/Flags.lean ====
section
/-! DEFINITION. The machine has no flags, condition codes or predicates (R17). What stands here is
what takes their place: the word a comparison stores, and the condition a jump tests. -/

namespace Sys2Proof.Machine

/-- R67: 1 when the FIRST source is less than the second, as signed values, else 0. The direction is
PRESUMED (D19, assumption log 10). -/
def ltWord (a b : Word) : Word := if a.toInt < b.toInt then 1 else 0

/-- R68: 1 when the sources are equal, else 0. -/
def eqWord (a b : Word) : Word := if a.toInt = b.toInt then 1 else 0

/-- R64, R65: any word but 0 is true. -/
def isTrue (c : Word) : Bool := c.toInt ≠ 0

end Sys2Proof.Machine
end

