-- ==== Sys2Proof/Syntax.lean ====
section
/-! DEFINITION. The instructions: one constructor for each row of spec/opcode_table.json (R45), each
carrying the addressing modes of its operand positions.

R19 and R44: a decoded instruction is an operation and a list of modes. The operand WORDS are no
part of it: they are memory words, fetched in a later phase of the step (R73 phase 4), after the
input test of IN. -/

namespace Sys2Proof

/-- R46: the three addressing modes, mode digits 0, 1 and 2. -/
inductive Mode where
  | pointer
  | immediate
  | relative
deriving DecidableEq, Repr

/-- R45: the ten operations with their modes in operand order. `inp` is the table's IN. -/
inductive Instr where
  | add (m1 m2 m3 : Mode)
  | mul (m1 m2 m3 : Mode)
  | inp (m1 : Mode)
  | out (m1 : Mode)
  | jt (m1 m2 : Mode)
  | jf (m1 m2 : Mode)
  | lt (m1 m2 m3 : Mode)
  | eq (m1 m2 m3 : Mode)
  | arb (m1 : Mode)
  | hlt
deriving DecidableEq, Repr

/-- R44: the two names under which the decoder rejects a word. -/
inductive DecodeError where
  /-- R48, R49: the word is negative or its opcode is no operation's. -/
  | invalidOpcode
  /-- R50: a used mode digit is above 2. -/
  | invalidMode
deriving DecidableEq, Repr

end Sys2Proof
end

