-- ==== Sys2Proof/Machine/Operands.lean ====
section
/-! DEFINITION. Every operand form: the operand word (R31), the effective address (R32), the value of
a source (R33), the address of a destination (R34), and the operand words of an instruction (R73
phase 4). All of them only read. -/

namespace Sys2Proof.Machine

/-- R31: `P(k) = MemRead(PC + k)`, the sum exact. -/
def operandWord (s : State) (k : Nat) : Except Fault Word := memRead s.mem (s.pc.toInt + k)

/-- R32, Pointer: the operand word is the address. -/
def pointerAddr (p : Word) : Except Fault Nat := validAddr p.toInt

/-- R32, Relative: `RB + P(k)`, the sum exact. -/
def relativeAddr (s : State) (p : Word) : Except Fault Nat := validAddr (s.rb.toInt + p.toInt)

/-- R33: `Src(k)` for the operand word `p`. -/
def src (s : State) (m : Mode) (p : Word) : Except Fault Word :=
  match m with
  | .immediate => .ok p
  | .pointer => do
    let a ← pointerAddr p
    return s.mem.read a
  | .relative => do
    let a ← relativeAddr s p
    return s.mem.read a

/-- R34: `Dst(k)` for the operand word `p`. -/
def dst (s : State) (m : Mode) (p : Word) : Except Fault Nat :=
  match m with
  | .immediate => .error .destinationImmediate
  | .pointer => pointerAddr p
  | .relative => relativeAddr s p

/-- R73 phases 4 and 5 for one source: format S (R41). -/
def resolveS (s : State) (m1 : Mode) : Except Fault Word := do
  let p1 ← operandWord s 1
  src s m1 p1

/-- R73 phases 4 and 5 for one destination: format D (R41). -/
def resolveD (s : State) (m1 : Mode) : Except Fault Nat := do
  let p1 ← operandWord s 1
  dst s m1 p1

/-- R73 phases 4 and 5 for two sources: format SS (R41). -/
def resolveSS (s : State) (m1 m2 : Mode) : Except Fault (Word × Word) := do
  let p1 ← operandWord s 1
  let p2 ← operandWord s 2
  let a ← src s m1 p1
  let b ← src s m2 p2
  return (a, b)

/-- R73 phases 4 and 5 for two sources and a destination, in that order: format SSD (R41, R60). -/
def resolveSSD (s : State) (m1 m2 m3 : Mode) : Except Fault (Word × Word × Nat) := do
  let p1 ← operandWord s 1
  let p2 ← operandWord s 2
  let p3 ← operandWord s 3
  let a ← src s m1 p1
  let b ← src s m2 p2
  let d ← dst s m3 p3
  return (a, b, d)

/-- The address that a format SSD instruction stores to, when it stores (R60). -/
def storeAddrSSD (s : State) (m1 m2 m3 : Mode) : Option Nat :=
  match resolveSSD s m1 m2 m3 with
  | .ok (_, _, d) => some d
  | .error _ => none

/-- The address that IN stores to, when it stores: not on an empty queue (R61). -/
def storeAddrD (s : State) (m1 : Mode) : Option Nat :=
  match s.inQ, resolveD s m1 with
  | _ :: _, .ok d => some d
  | _ :: _, .error _ => none
  | [], _ => none

/-- The address that an instruction stores to, when it stores: only one with a destination operand does
(R41, R40). -/
def storeAddr (i : Instr) (s : State) : Option Nat :=
  match i with
  | .add m1 m2 m3 => storeAddrSSD s m1 m2 m3
  | .mul m1 m2 m3 => storeAddrSSD s m1 m2 m3
  | .inp m1 => storeAddrD s m1
  | .out _ => none
  | .jt _ _ => none
  | .jf _ _ => none
  | .lt m1 m2 m3 => storeAddrSSD s m1 m2 m3
  | .eq m1 m2 m3 => storeAddrSSD s m1 m2 m3
  | .arb _ => none
  | .hlt => none

end Sys2Proof.Machine
end

