-- ==== Sys2Proof/Machine/Arith.lean ====
section
/-! DEFINITION. The four-word instructions: ADD, MUL (R57 to R60), LT, EQ (R67, R68). -/

namespace Sys2Proof.Machine

/-- R57, R59: the exact sum, then `wrap64`. -/
def addWord (a b : Word) : Word := wrap64 (a.toInt + b.toInt)

/-- R58, R59: the exact product, then `wrap64`. -/
def mulWord (a b : Word) : Word := wrap64 (a.toInt * b.toInt)

/-- R60: the shape ADD, MUL, LT and EQ share. Both sources and the destination are resolved before
the store, and `PC` advances by 4 whatever was stored. -/
def storeBinary (f : Word → Word → Word) (m1 m2 m3 : Mode) (s : State) :
    Host.Outcome State Fault Refusal :=
  settle s do
    let (a, b, d) ← resolveSSD s m1 m2 m3
    return (s.setMem (s.mem.write d (f a b))).advance 4

/-- R57: ADD. -/
def execAdd (m1 m2 m3 : Mode) (s : State) : Host.Outcome State Fault Refusal :=
  storeBinary addWord m1 m2 m3 s

/-- R58: MUL. -/
def execMul (m1 m2 m3 : Mode) (s : State) : Host.Outcome State Fault Refusal :=
  storeBinary mulWord m1 m2 m3 s

/-- R67: LT. -/
def execLt (m1 m2 m3 : Mode) (s : State) : Host.Outcome State Fault Refusal :=
  storeBinary ltWord m1 m2 m3 s

/-- R68: EQ. -/
def execEq (m1 m2 m3 : Mode) (s : State) : Host.Outcome State Fault Refusal :=
  storeBinary eqWord m1 m2 m3 s

end Sys2Proof.Machine
end

