-- ==== Sys2Proof/Machine/Control.lean ====
section
/-! DEFINITION. Control transfer: JT, JF (R64 to R66) and HLT (R70, R71). -/

namespace Sys2Proof.Machine

/-- R64, R65: both operands are resolved whether or not the jump is taken; the target is written to
`PC` unchecked (R66, assumption log 14). -/
def jumpWhen (taken : Word → Bool) (m1 m2 : Mode) (s : State) : Host.Outcome State Fault Refusal :=
  settle s do
    let (c, t) ← resolveSS s m1 m2
    return if taken c then s.setPc t else s.advance 3

/-- R64: JT. -/
def execJt (m1 m2 : Mode) (s : State) : Host.Outcome State Fault Refusal :=
  jumpWhen isTrue m1 m2 s

/-- R65: JF. -/
def execJf (m1 m2 : Mode) (s : State) : Host.Outcome State Fault Refusal :=
  jumpWhen (fun c => !isTrue c) m1 m2 s

/-- R70, R71: HLT. The run returns Halted; nothing changes and `PC` keeps the address of HLT. -/
def execHlt (s : State) : Host.Outcome State Fault Refusal :=
  .next (returnRun .halted s)

end Sys2Proof.Machine
end

