-- ==== Sys2Proof/Machine/InOut.lean ====
section
/-! DEFINITION. IN and OUT (R61 to R63), the only instructions that touch the queues. -/

namespace Sys2Proof.Machine

/-- R61: IN. The empty-queue test comes before the operand word is fetched (R73 phase 3); the pop
comes after the destination is resolved, so an error leaves the queue whole. -/
def execInp (m1 : Mode) (s : State) : Host.Outcome State Fault Refusal :=
  match s.inQ with
  | [] => .next (returnRun .awaitingInput s)
  | v :: rest =>
    settle s do
      let d ← resolveD s m1
      return ((s.setInQ rest).setMem (s.mem.write d v)).advance 2

/-- R62: OUT. -/
def execOut (m1 : Mode) (s : State) : Host.Outcome State Fault Refusal :=
  settle s do
    let v ← resolveS s m1
    return (s.setOutQ (s.outQ ++ [v])).advance 2

end Sys2Proof.Machine
end

