-- ==== Sys2Proof/Machine/RelBase.lean ====
section
/-! DEFINITION. ARB (R69), the only instruction that writes the machine's one control register. -/

namespace Sys2Proof.Machine

/-- R69: ARB. A Relative operand is read with the old `RB`. -/
def execArb (m1 : Mode) (s : State) : Host.Outcome State Fault Refusal :=
  settle s do
    let v ← resolveS s m1
    return (s.setRb (wrap64 (s.rb.toInt + v.toInt))).advance 2

end Sys2Proof.Machine
end

