-- ==== Sys2Proof/Machine/Dispatch.lean ====
section
/-! DEFINITION. One arm for each instruction (R73 phase 5): a direct call of its meaning. -/

namespace Sys2Proof.Machine

def exec (i : Instr) (s : State) : Host.Outcome State Fault Refusal :=
  match i with
  | .add m1 m2 m3 => Sys2Proof.Machine.execAdd m1 m2 m3 s
  | .mul m1 m2 m3 => Sys2Proof.Machine.execMul m1 m2 m3 s
  | .inp m1 => Sys2Proof.Machine.execInp m1 s
  | .out m1 => Sys2Proof.Machine.execOut m1 s
  | .jt m1 m2 => Sys2Proof.Machine.execJt m1 m2 s
  | .jf m1 m2 => Sys2Proof.Machine.execJf m1 m2 s
  | .lt m1 m2 m3 => Sys2Proof.Machine.execLt m1 m2 m3 s
  | .eq m1 m2 m3 => Sys2Proof.Machine.execEq m1 m2 m3 s
  | .arb m1 => Sys2Proof.Machine.execArb m1 s
  | .hlt => Sys2Proof.Machine.execHlt s

end Sys2Proof.Machine
end

