-- ==== Sys2Proof/WellFormed.lean ====
section
/-! DEFINITION. Well-formed instructions: the one restriction the spec puts on an instruction beyond
what the types say. R46: Immediate mode is "valid only for source operands, never for a
destination".

An ill-formed instruction still decodes and runs (R52); it raises DestinationImmediate when its
destination is resolved. So nothing in the machine consults this predicate. -/

namespace Sys2Proof

/-- The mode of the destination operand, for the operations that have one (R41: formats D, SSD). -/
def Instr.destMode : Instr → Option Mode
  | .add _ _ m3 => some m3
  | .mul _ _ m3 => some m3
  | .inp m1 => some m1
  | .out _ => none
  | .jt _ _ => none
  | .jf _ _ => none
  | .lt _ _ m3 => some m3
  | .eq _ _ m3 => some m3
  | .arb _ => none
  | .hlt => none

/-- R46, R52: no destination operand is in Immediate mode. -/
def Instr.wellFormed (i : Instr) : Bool :=
  match i.destMode with
  | some .immediate => false
  | some .pointer => true
  | some .relative => true
  | none => true

end Sys2Proof
end

