-- ==== Sys2Proof/Decode.lean ====
section
/-! DEFINITION. The decoder (R42 to R54), total on words and rejecting by name, and after it the
encoder (R56), each written from the spec's own tables. Fields are decimal digits (R7, R42, R43). -/

namespace Sys2Proof

/-- R7: the decimal digit of weight 10^i. -/
def dig (n i : Nat) : Nat := n / 10 ^ i % 10

/-- R46, R50: the mode of a mode digit; a digit above 2 is InvalidMode. -/
def modeOfDigit (d : Nat) : Except DecodeError Mode :=
  match d with
  | 0 => .ok .pointer
  | 1 => .ok .immediate
  | 2 => .ok .relative
  | _ => .error .invalidMode

/-- R43, R44: the mode of operand position `k` is digit `k + 1`. -/
def modeAt (n k : Nat) : Except DecodeError Mode := modeOfDigit (dig n (k + 1))

/-- R44 for one operand. -/
def decode1 (n : Nat) (f : Mode → Instr) : Except DecodeError Instr := do
  let m1 ← modeAt n 1
  return f m1

/-- R44 for two operands, ascending. -/
def decode2 (n : Nat) (f : Mode → Mode → Instr) : Except DecodeError Instr := do
  let m1 ← modeAt n 1
  let m2 ← modeAt n 2
  return f m1 m2

/-- R44 for three operands, ascending. -/
def decode3 (n : Nat) (f : Mode → Mode → Mode → Instr) : Except DecodeError Instr := do
  let m1 ← modeAt n 1
  let m2 ← modeAt n 2
  let m3 ← modeAt n 3
  return f m1 m2 m3

/-- R44, R45 for a non-negative word: the opcode first, then the digits of the used positions.
Digits above them are not examined (R51, DESIGN CHOICE of the spec, assumption log 9). Codes 5 to 8
are PRESUMED (R45, assumption log 7). -/
def decodeNat (n : Nat) : Except DecodeError Instr :=
  match n % 100 with
  | 1 => decode3 n .add
  | 2 => decode3 n .mul
  | 3 => decode1 n .inp
  | 4 => decode1 n .out
  | 5 => decode2 n .jt
  | 6 => decode2 n .jf
  | 7 => decode3 n .lt
  | 8 => decode3 n .eq
  | 9 => decode1 n .arb
  | 99 => .ok .hlt
  | _ => .error .invalidOpcode

/-- R44: `Decode(w)`. A negative word is InvalidOpcode (R49, DESIGN CHOICE of the spec, assumption
log 11). -/
def decode (w : Word) : Except DecodeError Instr :=
  if w.toInt < 0 then .error .invalidOpcode else decodeNat w.toNat

/-- R45: the two-digit code of each operation. -/
def Instr.code : Instr → Nat
  | .add _ _ _ => 1
  | .mul _ _ _ => 2
  | .inp _ => 3
  | .out _ => 4
  | .jt _ _ => 5
  | .jf _ _ => 6
  | .lt _ _ _ => 7
  | .eq _ _ _ => 8
  | .arb _ => 9
  | .hlt => 99

/-- R44: the modes in operand order. -/
def Instr.modes : Instr → List Mode
  | .add m1 m2 m3 => [m1, m2, m3]
  | .mul m1 m2 m3 => [m1, m2, m3]
  | .inp m1 => [m1]
  | .out m1 => [m1]
  | .jt m1 m2 => [m1, m2]
  | .jf m1 m2 => [m1, m2]
  | .lt m1 m2 m3 => [m1, m2, m3]
  | .eq m1 m2 m3 => [m1, m2, m3]
  | .arb m1 => [m1]
  | .hlt => []

/-- R41, R45: the operand count `n`. -/
def Instr.operandCount (i : Instr) : Nat := i.modes.length

/-- R41: the encoded width, 1 + n words. -/
def Instr.width (i : Instr) : Nat := 1 + i.operandCount

/-- R46: the digit of each mode. -/
def Mode.digit : Mode → Nat
  | .pointer => 0
  | .immediate => 1
  | .relative => 2

/-- R56: the mode digits as a number, the first mode its lowest digit. -/
def modeDigits : List Mode → Nat
  | [] => 0
  | m :: rest => m.digit + 10 * modeDigits rest

/-- R56: `c + 100 m1 + 1000 m2 + 10000 m3`. -/
def Instr.encodeNat (i : Instr) : Nat := i.code + 100 * modeDigits i.modes

/-- R56: the instruction word. -/
def encode (i : Instr) : Word := BitVec.ofNat 64 i.encodeNat

/-- R56: the instruction word followed by its operand words in order. -/
def assemble (i : Instr) (operands : List Word) : List Word := encode i :: operands

/-- The word of an opcode-table row: its bits are the binary numeral of the decimal instruction word,
bits at or above `nbits` are 0, and a word has 64 bits, so word `k` is bits 64k to 64k + 63
(assumption log 25). -/
def tableWord (nbits w k : Nat) : Word := BitVec.ofNat 64 (w % 2 ^ nbits / 2 ^ (64 * k))

/-- What the decoder reads from a table row's word: the instruction word alone decides (R53). -/
def decodeTableWord (nbits w : Nat) : Option Instr :=
  match decode (tableWord nbits w 0) with
  | .ok i => some i
  | .error _ => none

end Sys2Proof
end

