-- ==== Sys2Proof/Machine/Fetch.lean ====
section
/-! DEFINITION. Fetch and decode (R73 phases 1 and 2): always from the current memory, nothing is
cached (R19, R39). And the placing of an instruction's words where the next fetch reads them. -/

namespace Sys2Proof.Machine

/-- R98, R99: the decoder's two rejections as error kinds. -/
def faultOfDecode : DecodeError → Fault
  | .invalidOpcode => .invalidOpcode
  | .invalidMode => .invalidMode

/-- R73 phase 1: the instruction word at `PC`. -/
def fetchWord (s : State) : Except Fault Word := memRead s.mem s.pc.toInt

/-- R73 phases 1 and 2. -/
def fetchDecode (s : State) : Except Fault Instr :=
  match fetchWord s with
  | .error k => .error k
  | .ok w =>
    match decode w with
    | .error e => .error (faultOfDecode e)
    | .ok i => .ok i

/-- The words stored at `a`, `a + 1`, ..., as far as these are valid addresses. -/
def storeWords (m : Memory) (a : Int) : List Word → Memory
  | [] => m
  | v :: rest =>
    match memWrite m a v with
    | .ok m' => storeWords m' (a + 1) rest
    | .error _ => m

/-- Four words, the longest instruction, stored at `PC`, and a run in progress (assumption log 24). -/
def placeTableWord (s : State) (nbits w : Nat) : State :=
  resume (s.setMem (storeWords s.mem s.pc.toInt
    [tableWord nbits w 0, tableWord nbits w 1, tableWord nbits w 2, tableWord nbits w 3]))

end Sys2Proof.Machine
end

