-- ==== Sys2Proof/Machine/Engine.lean ====
section
/-! DEFINITION. The engine's step (R72, R73). -/

namespace Sys2Proof.Machine

/-- R73: fetch, decode, then the instruction's own phases; an error of the first two is taken. -/
def engineStep (s : State) : Host.Outcome State Fault Refusal :=
  match fetchDecode s with
  | .ok i => exec i s
  | .error k => .next (raise k s)

end Sys2Proof.Machine
end

