-- ==== Sys2Proof/Machine/HostInterface.lean ====
section
/-! DEFINITION. The host's transactions (R83 to R92), each atomic, and the host's relay between two
instances (R94).

The spec gives no meaning to a transaction on an instance whose run is in progress (R118, U9). A
`host...` function, `perform` and `pushAll` are the effect of transactions alone and do not look at
`call`; who calls them does. `step` performs one only when no run is in progress, and `relay` has no
result when one is (DESIGN CHOICE, assumption log 21, 22). -/

namespace Sys2Proof.Machine

/-- R83: a transaction has returned this value. -/
def reply (r : Reply) (s : State) : State := s.setCall (.returned r)

/-- R84, R21, R113, R114: build overwrites all six elements of the instance. The transactions the host
has still to issue are the host's, and stay. -/
def hostBuild (image : List Word) (s : State) : State :=
  reply .done { State.reset with mem := Memory.ofImage image, requests := s.requests }

/-- R85: peek is `MemRead`; a failure goes to the host and changes nothing (assumption log 18). -/
def hostPeek (a : Word) (s : State) : State :=
  match memRead s.mem a.toInt with
  | .ok v => reply (.word v) s
  | .error k => reply (.error k) s

/-- R86: poke is `MemWrite`; a failure goes to the host and changes nothing (assumption log 18). -/
def hostPoke (a v : Word) (s : State) : State :=
  match memWrite s.mem a.toInt v with
  | .ok m => reply .done (s.setMem m)
  | .error k => reply (.error k) s

/-- R87: push_input appends at the back of `InQ`. -/
def hostPushInput (v : Word) (s : State) : State := reply .done (s.setInQ (s.inQ ++ [v]))

/-- R88: drain_output returns the whole of `OutQ` and leaves it as it is. -/
def hostDrainOutput (s : State) : State := reply (.output s.outQ) s

/-- R89: clear_output empties `OutQ` (assumption log 18). -/
def hostClearOutput (s : State) : State := reply .done (s.setOutQ [])

/-- R90: run starts the run loop at the current `PC` (R74). -/
def hostRun (s : State) : State := resume s

/-- R83: one transaction, on an instance with no run in progress (assumption log 21). -/
def perform (t : Transaction) (s : State) : State :=
  match t with
  | .build image => hostBuild image s
  | .peek a => hostPeek a s
  | .poke a v => hostPoke a v s
  | .pushInput v => hostPushInput v s
  | .drainOutput => hostDrainOutput s
  | .clearOutput => hostClearOutput s
  | .run => hostRun s

/-- The host's move: its oldest pending transaction. With none pending the instance is idle and all
its state survives unchanged (R112, assumption log 6). -/
def hostMove (s : State) : State :=
  match s.requests with
  | [] => s
  | t :: rest => perform t (s.setRequests rest)

/-- R87, repeated: the words pushed in order, into an instance with no run in progress. On one with a
run in progress the spec gives it no meaning (R118, U9), and no definition and no statement of this
model applies it there (DESIGN CHOICE, assumption log 21). -/
def pushAll (ws : List Word) (s : State) : State :=
  ws.foldl (fun t v => hostPushInput v t) s

/-- R94: the host drains one instance, pushes each word in order into the other, and clears the
first. The answer is the pair, or none where a run is in progress on either: the host has no such move
(R4, R118, U9; DESIGN CHOICE, assumption log 21, 22). -/
def relay (giver taker : State) : Option (State × State) :=
  match giver.call, taker.call with
  | .returned _, .returned _ => some (hostClearOutput giver, pushAll giver.outQ taker)
  | .returned _, .running => none
  | .running, _ => none

end Sys2Proof.Machine
end

