-- ==== Sys2Proof/Machine/Step.lean ====
section
/-! DEFINITION. One step of the machine (R72, R73): the engine's while a run is in progress, the
host's otherwise (R4). -/

namespace Sys2Proof.Machine

/-- R4: one agent acts at a time. -/
def step (s : State) : Host.Outcome State Fault Refusal :=
  match s.call with
  | .running => engineStep s
  | .returned _ => .next (hostMove s)

/-- `s` with a table row's word (and zero operand words) at `PC` and a run in progress, so that the
next step fetches and runs exactly it (assumption log 24). -/
def State.withFetchWord (s : State) (nbits w : Nat) : State := placeTableWord s nbits w

end Sys2Proof.Machine
end

