-- ==== Sys2Proof/Machine/Run.lean ====
section
/-! DEFINITION. The run loop (R74) under fuel: exhausted fuel is "no outcome yet", not an outcome
(R81). -/

namespace Sys2Proof.Machine

/-- R74: steps while a run is in progress; the state in which it has returned, if the fuel reaches
that far. -/
def runLoop : Nat → State → Option State
  | 0, s =>
    match s.call with
    | .returned _ => some s
    | .running => none
  | n + 1, s =>
    match s.call with
    | .returned _ => some s
    | .running =>
      match step s with
      | .next t => runLoop n t
      | .fault _ => none
      | .refused _ => none

/-- R74, R90: the host's `run()` on an instance, with its outcome. None where a run is in progress
already: the host has no such move (R83, R118, U9 give it no meaning; DESIGN CHOICE, assumption log
21). -/
def run (fuel : Nat) (s : State) : Option (RunOutcome × State) :=
  match s.call with
  | .running => none
  | .returned _ =>
    match runLoop fuel (resume s) with
    | none => none
    | some t =>
      match t.call with
      | .returned (.outcome o) => some (o, t)
      | .returned _ => none
      | .running => none

end Sys2Proof.Machine
end

