-- ==== Sys2Proof/Safety.lean ====
section
/-! DEFINITION. The terms the claims use: what an operand is, said from R31 to R34 without the
machine's own operand functions; the invariant of the model; what a safe run is. -/

namespace Sys2Proof.Machine

/-! ### Operands, as the rules of 20_memory.md say them -/

/-- R24: an exact integer that is a valid address. -/
abbrev ValidAddress (a : Int) : Prop := 0 ≤ a ∧ a ≤ 9223372036854775807

/-- R31: the address of operand word `k`. -/
abbrev operandAddress (s : State) (k : Nat) : Int := s.pc.toInt + k

/-- R31: the operand word, where its address is valid. -/
abbrev operandAt (s : State) (k : Nat) : Word := s.mem.read (operandAddress s k).toNat

/-- R32: the exact integer a Pointer or Relative operand names. Immediate names none (R33). -/
abbrev effective (s : State) (m : Mode) (k : Nat) : Int :=
  (if m = .relative then s.rb.toInt else 0) + (operandAt s k).toInt

/-- R31, R33: operand `k` in mode `m` is a source whose value is `v`. -/
abbrev SourceValue (s : State) (k : Nat) (m : Mode) (v : Word) : Prop :=
  ValidAddress (operandAddress s k) ∧
    (m = .immediate → v = operandAt s k) ∧
    (m ≠ .immediate → ValidAddress (effective s m k) ∧ v = s.mem.read (effective s m k).toNat)

/-- R31, R34: operand `k` in mode `m` is a destination whose address is `d`. -/
abbrev DestAddress (s : State) (k : Nat) (m : Mode) (d : Nat) : Prop :=
  ValidAddress (operandAddress s k) ∧ m ≠ .immediate ∧
    ValidAddress (effective s m k) ∧ d = (effective s m k).toNat

/-- R32: the operand word is there, and the address the operand names is not valid. -/
abbrev BadAddress (s : State) (k : Nat) (m : Mode) : Prop :=
  ValidAddress (operandAddress s k) ∧ m ≠ .immediate ∧ ¬ ValidAddress (effective s m k)

/-! ### Results of a step -/

/-- R72: the run goes on from `t`. -/
abbrev Continues (o : Host.Outcome State Fault Refusal) (t : State) : Prop :=
  o = .next t ∧ t.call = .running

/-- R72: the run returns this outcome and the state is otherwise as it was. -/
abbrev Returns (o : Host.Outcome State Fault Refusal) (s : State) (r : RunOutcome) : Prop :=
  o = .next (s.setCall (.returned (.outcome r)))

/-- Every address reads as before. -/
abbrev SameReads (s t : State) : Prop := ∀ a : Nat, t.mem.read a = s.mem.read a

/-- Every address but `d` reads as before. -/
abbrev SameReadsBut (d : Nat) (s t : State) : Prop := ∀ a : Nat, a ≠ d → t.mem.read a = s.mem.read a

/-! ### The invariant -/

/-- R9, R84: an image the address space can hold. -/
def Transaction.fits (t : Transaction) : Prop :=
  match t with
  | .build image => image.length ≤ Config.maxLen
  | .peek _ => True
  | .poke _ _ => True
  | .pushInput _ => True
  | .drainOutput => True
  | .clearOutput => True
  | .run => True

/-- What every step keeps: memory in canonical form, the current length within 0 .. 2^63 (R9), and
every image still to be built one the address space can hold. -/
def Inv (s : State) : Prop :=
  s.mem.wf ∧ s.mem.len ≤ Config.maxLen ∧ ∀ t ∈ s.requests, t.fits

/-! ### What cannot be told apart -/

/-- R26: two states that agree on everything but the current length and how memory is held. -/
def Agree (s t : State) : Prop :=
  s.pc = t.pc ∧ s.rb = t.rb ∧ s.inQ = t.inQ ∧ s.outQ = t.outQ ∧ s.call = t.call ∧
    s.requests = t.requests ∧
    ∀ a : Nat, (a : Int) ≤ Config.addrMax → s.mem.read a = t.mem.read a

/-! ### Safe runs -/

/-- R79: the last run has ended in an error. -/
def Failed (s : State) : Prop := ∃ k : Fault, s.call = .returned (.outcome (.fatal k))

/-- A run, the one `s` has in progress or else the next one (assumption log 21), that, however far it is
followed, has not ended in an error. A faulted run is never final
(93_implementation_defined.md U5), so claims about a program's result are made of safe runs. -/
def SafeRun (s : State) : Prop := ∀ (n : Nat) (t : State), runLoop n (resume s) = some t → ¬ Failed t

end Sys2Proof.Machine
end

