-- ==== Sys2Proof/Certificates/Slice0/Obligations.lean ====
section
/-! DEFINITION. The statements for the provers. Each docstring names the rules of spec/ it formalises,
and the spec's own decision or the log entry where it rests on one. An exec statement holds of every
state, in a run or not; a step statement says whose move it is. -/

open Sys2Proof Sys2Proof.Machine

/-! ### Encoding (30_encoding.md) -/

/-- 30_encoding.md section 5 and 95_test_vectors.md section 2.1: words of the source's examples, and
one of each code 5 to 8 (PRESUMED, log 7). -/
def Obligations.DecodeReadsSampleWords : Prop :=
  decode 1 = .ok (.add .pointer .pointer .pointer) ∧
  decode 1002 = .ok (.mul .pointer .immediate .pointer) ∧
  decode 203 = .ok (.inp .relative) ∧
  decode 104 = .ok (.out .immediate) ∧
  decode 1205 = .ok (.jt .relative .immediate) ∧
  decode 2106 = .ok (.jf .immediate .relative) ∧
  decode 21107 = .ok (.lt .immediate .immediate .relative) ∧
  decode 1008 = .ok (.eq .pointer .immediate .pointer) ∧
  decode 109 = .ok (.arb .immediate) ∧
  decode 99 = .ok .hlt

/-- R42, R43, R44, R56, with surplus digits as D3 has them (log 9) and negative words as D2 has them
(log 11): a word decodes to `i` exactly when it is not negative and its lowest `n + 2` decimal digits
are `i`'s encoding. So decoding inverts encoding, and no other word decodes to `i`. -/
def Obligations.DecodeInvertsEncode : Prop :=
  ∀ (i : Instr) (w : Word),
    decode w = .ok i ↔ 0 ≤ w.toInt ∧ w.toNat % 10 ^ (i.operandCount + 2) = i.encodeNat

/-- R41, R53, R56, R31: where an instruction's word and its operand words stand in memory at `PC`,
the fetch decodes that instruction and operand position `k` reads its `k`-th operand word, whatever
its value. -/
def Obligations.AssembledInstructionIsReadBack : Prop :=
  ∀ (i : Instr) (ops : List Word) (s : State),
    ops.length = i.operandCount →
    0 ≤ s.pc.toInt → s.pc.toInt + i.operandCount ≤ Config.addrMax →
    (∀ (j : Nat) (v : Word), (assemble i ops)[j]? = some v → s.mem.read (s.pc.toNat + j) = v) →
    fetchDecode s = .ok i ∧
      ∀ (k : Nat) (p : Word), ops[k]? = some p → operandWord s (k + 1) = .ok p

/-- R44, R48, R50, R54 with D2 and D4 (log 11, 12): the two rejections, and exactly when. The operand
count of an opcode is that of any instruction with that code. -/
def Obligations.DecodeRejectsByName : Prop :=
  (∀ w : Word, decode w = .error .invalidOpcode ↔
    w.toInt < 0 ∨ w.toNat % 100 = 0 ∨ (10 ≤ w.toNat % 100 ∧ w.toNat % 100 ≤ 98)) ∧
  (∀ w : Word, decode w = .error .invalidMode ↔
    0 ≤ w.toInt ∧ ∃ i : Instr, w.toNat % 100 = i.code ∧
      ∃ k : Nat, 1 ≤ k ∧ k ≤ i.operandCount ∧ 3 ≤ dig w.toNat (k + 1))

/-- D3, 30_encoding.md R51's behaviour (the spec's own decision, log 9): digits above the last used
mode position have no effect, on acceptance or on rejection. -/
def Obligations.SurplusDigitsHaveNoEffect : Prop :=
  ∀ (i : Instr) (w w' : Word), 0 ≤ w.toInt → 0 ≤ w'.toInt →
    w.toNat % 100 = i.code →
    w.toNat % 10 ^ (i.operandCount + 2) = w'.toNat % 10 ^ (i.operandCount + 2) →
    decode w = decode w'

/-! ### Fetch and decode errors (60_exceptions.md) -/

/-- R48: an unknown opcode is InvalidOpcode, every unassigned code alike; and in particular the word 0
that every address at or beyond the current length reads as. -/
def Obligations.UnknownOpcodeIsInvalidOpcode : Prop :=
  (∀ s : State, s.call = .running → 0 ≤ s.pc.toInt →
    0 ≤ (s.mem.read s.pc.toNat).toInt →
    ((s.mem.read s.pc.toNat).toNat % 100 = 0 ∨
      (10 ≤ (s.mem.read s.pc.toNat).toNat % 100 ∧ (s.mem.read s.pc.toNat).toNat % 100 ≤ 98)) →
    Returns (step s) s (.fatal .invalidOpcode)) ∧
  (∀ s : State, s.call = .running → 0 ≤ s.pc.toInt → s.mem.len ≤ s.pc.toNat →
    s.mem.read s.pc.toNat = 0 ∧ Returns (step s) s (.fatal .invalidOpcode))

/-- R50: a known opcode with a mode digit above 2 in a used position is InvalidMode, whatever the
operands of the instruction would be. -/
def Obligations.IllegalModeDigitIsInvalidMode : Prop :=
  ∀ (s : State) (i : Instr) (k : Nat), s.call = .running → 0 ≤ s.pc.toInt →
    0 ≤ (s.mem.read s.pc.toNat).toInt →
    (s.mem.read s.pc.toNat).toNat % 100 = i.code →
    1 ≤ k → k ≤ i.operandCount → 3 ≤ dig (s.mem.read s.pc.toNat).toNat (k + 1) →
    Returns (step s) s (.fatal .invalidMode)

/-- D2 and D7, the spec's own decisions (log 11, 14): a negative instruction word is InvalidOpcode, and
a negative `PC` is InvalidAddress at the fetch, with `PC` still holding it. -/
def Obligations.NegativeWordAndNegativePc : Prop :=
  (∀ s : State, s.call = .running → 0 ≤ s.pc.toInt → (s.mem.read s.pc.toNat).toInt < 0 →
    Returns (step s) s (.fatal .invalidOpcode)) ∧
  (∀ s : State, s.call = .running → s.pc.toInt < 0 → Returns (step s) s (.fatal .invalidAddress))

/-- R52, R101: an instruction whose destination is not Immediate never ends a run in
DestinationImmediate. -/
def Obligations.WellFormedNeverDestinationImmediate : Prop :=
  ∀ (i : Instr) (s t : State), i.wellFormed = true → s.call = .running → exec i s = .next t →
    t.call ≠ .returned (.outcome (.fatal .destinationImmediate))

/-! ### One step -/

/-- R73, R19, R39: when the word at `PC` decodes to `i`, the step is `i`'s execution, nothing added:
the instruction itself writes `PC`. -/
def Obligations.StepRunsTheDecodedInstruction : Prop :=
  ∀ (s : State) (i : Instr), s.call = .running → 0 ≤ s.pc.toInt →
    decode (s.mem.read s.pc.toNat) = .ok i → step s = exec i s

/-- R72, R82: every step of every state has a result, and it is a next state: the model's choice for
errors, suspension and halting (log 5), and for an idle instance (log 6). -/
def Obligations.EveryStepAnswersANextState : Prop := ∀ s : State, ∃ t : State, step s = .next t

/-- R72, R73 with D8 and D9 (log 12, 15): a step that does not continue changes nothing but the outcome
the run returns; and no step of a run touches the host's pending transactions. -/
def Obligations.StepsThatReturnChangeNothing : Prop :=
  ∀ s t : State, s.call = .running → step s = .next t →
    t.requests = s.requests ∧
      (t.call = .running ∨ ∃ o : RunOutcome, t = s.setCall (.returned (.outcome o)))

/-- R76: Halted exactly when the step executes HLT; and the word beyond the program, which reads 0, is
no halt but InvalidOpcode. -/
def Obligations.HaltedExactlyAtHlt : Prop :=
  (∀ s : State, s.call = .running →
    ((∃ t, step s = .next t ∧ t.call = .returned (.outcome .halted)) ↔
      0 ≤ s.pc.toInt ∧ decode (s.mem.read s.pc.toNat) = .ok .hlt)) ∧
  (∀ s : State, s.call = .running → 0 ≤ s.pc.toInt → s.mem.len ≤ s.pc.toNat →
    Returns (step s) s (.fatal .invalidOpcode))

/-- R77: AwaitingInput exactly when the step reaches an IN with the input queue empty, and then
memory, `PC`, `RB` and both queues are as at the start of that instruction. -/
def Obligations.AwaitingInputExactlyAtEmptyIn : Prop :=
  ∀ s : State, s.call = .running →
    ((∃ t, step s = .next t ∧ t.call = .returned (.outcome .awaitingInput)) ↔
      0 ≤ s.pc.toInt ∧ (∃ m1, decode (s.mem.read s.pc.toNat) = .ok (.inp m1)) ∧ s.inQ = []) ∧
    (∀ t, step s = .next t → t.call = .returned (.outcome .awaitingInput) →
      t.mem = s.mem ∧ t.pc = s.pc ∧ t.rb = s.rb ∧ t.outQ = s.outQ ∧ t.inQ = s.inQ ∧ t.inQ = [])

/-- R78 with D8's place for the pop (log 12): a suspended IN is attempted again by the next run. With
words pushed meanwhile it consumes exactly the oldest and goes on behind itself; with none the run
suspends again and nothing changes. -/
def Obligations.ResumedInConsumesTheOldestWord : Prop :=
  ∀ (s t : State) (m1 : Mode), s.call = .running → 0 ≤ s.pc.toInt →
    decode (s.mem.read s.pc.toNat) = .ok (.inp m1) → s.inQ = [] → step s = .next t →
    step (resume t) = .next t ∧
    ∀ (v : Word) (rest : List Word) (d : Nat), DestAddress s 1 m1 d →
      step (resume (pushAll (v :: rest) t)) =
        .next { s with mem := s.mem.write d v, inQ := rest, pc := wrap64 (s.pc.toInt + 2) }

/-- R71, R107, R78, R120 with D10 (log 16): no outcome is latched. A run called again on an unchanged
instance returns the same outcome at once with nothing changed; and after Halted or an error it does
so whatever input was pushed meanwhile. -/
def Obligations.RunAgainReturnsTheSameOutcome : Prop :=
  ∀ (s t : State) (o : RunOutcome), s.call = .running → step s = .next t →
    t.call = .returned (.outcome o) →
    step (resume t) = .next t ∧
      (o ≠ .awaitingInput → ∀ ws : List Word,
        step (resume (pushAll ws t)) =
          .next ((pushAll ws t).setCall (.returned (.outcome o))))

/-- R39, R40, R60: a four-word instruction that stores over the word behind itself is followed by
whatever that word now decodes to. -/
def Obligations.StoreIntoTheNextInstructionIsFetched : Prop :=
  ∀ (op : Mode → Mode → Mode → Instr) (m1 m2 m3 : Mode) (s t : State) (d : Nat) (j : Instr),
    (op = Instr.add ∨ op = Instr.mul ∨ op = Instr.lt ∨ op = Instr.eq) →
    s.call = .running → exec (op m1 m2 m3) s = .next t → t.call = .running →
    storeAddrSSD s m1 m2 m3 = some d →
    s.pc.toInt + 4 ≤ Config.addrMax → (d : Int) = s.pc.toInt + 4 →
    decode (t.mem.read d) = .ok j → step t = exec j t

/-! ### The four-word instructions (40_add_multiply.md, 43_compare.md) -/

/-- R7: `wrap64` gives the word congruent modulo 2^64, which is the number itself when that is a
word. -/
def Obligations.WrapIsTheCongruentWord : Prop :=
  ∀ r : Int,
    (∃ q : Int, (wrap64 r).toInt = r + q * 18446744073709551616) ∧
    -9223372036854775808 ≤ (wrap64 r).toInt ∧ (wrap64 r).toInt ≤ 9223372036854775807 ∧
    (-9223372036854775808 ≤ r → r ≤ 9223372036854775807 → (wrap64 r).toInt = r)

/-- R57, R60; the wrap is D5 (log 8) and the order of the phases D8 (log 12). -/
def Obligations.AddStoresTheWrappedSum : Prop :=
  ∀ (m1 m2 m3 : Mode) (s : State) (a b : Word) (d : Nat),
    SourceValue s 1 m1 a → SourceValue s 2 m2 b → DestAddress s 3 m3 d →
    exec (.add m1 m2 m3) s =
      .next { s with mem := s.mem.write d (wrap64 (a.toInt + b.toInt)), pc := wrap64 (s.pc.toInt + 4) }

/-- R58, R60; the wrap is D5 (log 8). -/
def Obligations.MulStoresTheWrappedProduct : Prop :=
  ∀ (m1 m2 m3 : Mode) (s : State) (a b : Word) (d : Nat),
    SourceValue s 1 m1 a → SourceValue s 2 m2 b → DestAddress s 3 m3 d →
    exec (.mul m1 m2 m3) s =
      .next { s with mem := s.mem.write d (wrap64 (a.toInt * b.toInt)), pc := wrap64 (s.pc.toInt + 4) }

/-- R67, R60; the direction is D19 (log 10). -/
def Obligations.LtStoresTheSignedComparison : Prop :=
  ∀ (m1 m2 m3 : Mode) (s : State) (a b : Word) (d : Nat),
    SourceValue s 1 m1 a → SourceValue s 2 m2 b → DestAddress s 3 m3 d →
    exec (.lt m1 m2 m3) s =
      .next { s with mem := s.mem.write d (if a.toInt < b.toInt then 1 else 0),
                     pc := wrap64 (s.pc.toInt + 4) }

/-- R68, R60. -/
def Obligations.EqStoresTheEquality : Prop :=
  ∀ (m1 m2 m3 : Mode) (s : State) (a b : Word) (d : Nat),
    SourceValue s 1 m1 a → SourceValue s 2 m2 b → DestAddress s 3 m3 d →
    exec (.eq m1 m2 m3) s =
      .next { s with mem := s.mem.write d (if a = b then 1 else 0), pc := wrap64 (s.pc.toInt + 4) }

/-- R104 items 5 and 6 for ADD, MUL, LT, EQ (D8, D9; log 12, 15): an operand word out of range comes
first, then the sources, then an Immediate destination, then the destination's address; and nothing
but the outcome changes. -/
def Obligations.FourWordErrorsInOrder : Prop :=
  ∀ (op : Mode → Mode → Mode → Instr) (m1 m2 m3 : Mode) (s : State),
    (op = Instr.add ∨ op = Instr.mul ∨ op = Instr.lt ∨ op = Instr.eq) →
    (¬ (ValidAddress (operandAddress s 1) ∧ ValidAddress (operandAddress s 2) ∧
        ValidAddress (operandAddress s 3)) →
      Returns (exec (op m1 m2 m3) s) s (.fatal .invalidAddress)) ∧
    (ValidAddress (operandAddress s 1) → ValidAddress (operandAddress s 2) →
      ValidAddress (operandAddress s 3) →
      (BadAddress s 1 m1 ∨ BadAddress s 2 m2 →
        Returns (exec (op m1 m2 m3) s) s (.fatal .invalidAddress)) ∧
      (¬ BadAddress s 1 m1 → ¬ BadAddress s 2 m2 →
        (m3 = .immediate → Returns (exec (op m1 m2 m3) s) s (.fatal .destinationImmediate)) ∧
        (BadAddress s 3 m3 → Returns (exec (op m1 m2 m3) s) s (.fatal .invalidAddress))))

/-- R57, R58, R60, R67, R68: the frame of ADD, MUL, LT, EQ. Every register but `PC`, both queues and
every word of memory but the one stored stay as they are. -/
def Obligations.FourWordFrame : Prop :=
  ∀ (op : Mode → Mode → Mode → Instr) (m1 m2 m3 : Mode) (s t : State),
    (op = Instr.add ∨ op = Instr.mul ∨ op = Instr.lt ∨ op = Instr.eq) →
    exec (op m1 m2 m3) s = .next t →
    t.rb = s.rb ∧ t.inQ = s.inQ ∧ t.outQ = s.outQ ∧ t.requests = s.requests ∧
    (∀ d, storeAddrSSD s m1 m2 m3 = some d → SameReadsBut d s t) ∧
    (storeAddrSSD s m1 m2 m3 = none → SameReads s t)

/-! ### IN and OUT (41_input_output.md) -/

/-- R61 with the pop after the destination (D8, log 12): IN stores the oldest word and consumes
exactly it. -/
def Obligations.InStoresTheOldestWord : Prop :=
  ∀ (m1 : Mode) (s : State) (v : Word) (rest : List Word) (d : Nat),
    s.inQ = v :: rest → DestAddress s 1 m1 d →
    exec (.inp m1) s =
      .next { s with mem := s.mem.write d v, inQ := rest, pc := wrap64 (s.pc.toInt + 2) }

/-- R61, R104 items 4 to 6 (D8, D9; log 12, 15): an empty queue suspends before anything of the
operand is looked at; with a word queued, the errors of the operand, and the queue keeps every
word. -/
def Obligations.InSuspendsThenChecksItsDestination : Prop :=
  ∀ (m1 : Mode) (s : State),
    (s.inQ = [] → Returns (exec (.inp m1) s) s .awaitingInput) ∧
    (s.inQ ≠ [] →
      (¬ ValidAddress (operandAddress s 1) →
        Returns (exec (.inp m1) s) s (.fatal .invalidAddress)) ∧
      (ValidAddress (operandAddress s 1) → m1 = .immediate →
        Returns (exec (.inp m1) s) s (.fatal .destinationImmediate)) ∧
      (BadAddress s 1 m1 → Returns (exec (.inp m1) s) s (.fatal .invalidAddress)))

/-- R61: the frame of IN. -/
def Obligations.InFrame : Prop :=
  ∀ (m1 : Mode) (s t : State), exec (.inp m1) s = .next t →
    t.rb = s.rb ∧ t.outQ = s.outQ ∧ t.requests = s.requests ∧
    (t.inQ = s.inQ ∨ ∃ v, s.inQ = v :: t.inQ) ∧
    (∀ d, storeAddrD s m1 = some d → SameReadsBut d s t) ∧
    (storeAddrD s m1 = none → SameReads s t)

/-- R62: OUT appends its source's value; memory, `RB` and the input queue are not touched. -/
def Obligations.OutAppendsItsSource : Prop :=
  ∀ (m1 : Mode) (s : State) (v : Word), SourceValue s 1 m1 v →
    exec (.out m1) s = .next { s with outQ := s.outQ ++ [v], pc := wrap64 (s.pc.toInt + 2) }

/-! ### ARB, JT, JF, HLT (42_jumps.md, 44_relbase_halt.md) -/

/-- R69 with D5 (log 8): ARB adds its source, read with the old `RB`. -/
def Obligations.ArbAddsToTheRelativeBase : Prop :=
  ∀ (m1 : Mode) (s : State) (v : Word), SourceValue s 1 m1 v →
    exec (.arb m1) s =
      .next { s with rb := wrap64 (s.rb.toInt + v.toInt), pc := wrap64 (s.pc.toInt + 2) }

/-- R62, R69 (D9, log 15): the one error of OUT and ARB, which are never DestinationImmediate. -/
def Obligations.OneSourceErrors : Prop :=
  ∀ (op : Mode → Instr) (m1 : Mode) (s : State), (op = Instr.out ∨ op = Instr.arb) →
    (¬ ValidAddress (operandAddress s 1) ∨ BadAddress s 1 m1) →
    Returns (exec (op m1) s) s (.fatal .invalidAddress)

/-- R64, R66 (the advance of `PC` as D7 has it, log 14): any condition but 0 writes the target, whatever
word it is, into `PC`. -/
def Obligations.JtJumpsUnlessZero : Prop :=
  ∀ (m1 m2 : Mode) (s : State) (c a : Word), SourceValue s 1 m1 c → SourceValue s 2 m2 a →
    exec (.jt m1 m2) s = .next { s with pc := if c = 0 then wrap64 (s.pc.toInt + 3) else a }

/-- R65, R66 (D7, log 14): a condition of 0 writes the target, whatever word it is, into `PC`. -/
def Obligations.JfJumpsWhenZero : Prop :=
  ∀ (m1 m2 : Mode) (s : State) (c a : Word), SourceValue s 1 m1 c → SourceValue s 2 m2 a →
    exec (.jf m1 m2) s = .next { s with pc := if c = 0 then a else wrap64 (s.pc.toInt + 3) }

/-- R64, R65 (D8, D9; log 12, 15): the one error of JT and JF, from either operand, whether or not the
jump would be taken. -/
def Obligations.JumpErrors : Prop :=
  ∀ (op : Mode → Mode → Instr) (m1 m2 : Mode) (s : State), (op = Instr.jt ∨ op = Instr.jf) →
    (¬ ValidAddress (operandAddress s 1) ∨ ¬ ValidAddress (operandAddress s 2) ∨
      BadAddress s 1 m1 ∨ BadAddress s 2 m2) →
    Returns (exec (op m1 m2) s) s (.fatal .invalidAddress)

/-- R70, R71 with D10 (log 16): HLT returns Halted; nothing changes and `PC` keeps its address. -/
def Obligations.HltReturnsHalted : Prop :=
  ∀ s : State, exec .hlt s = .next { s with call := .returned (.outcome .halted) }

/-- R62, R64, R65, R69, R70: the frames of the instructions that store nothing. -/
def Obligations.NonStoringFrames : Prop :=
  ∀ s t : State,
    (∀ m1, exec (.out m1) s = .next t →
      SameReads s t ∧ t.mem.len = s.mem.len ∧ t.rb = s.rb ∧ t.inQ = s.inQ ∧ t.requests = s.requests) ∧
    (∀ m1, exec (.arb m1) s = .next t →
      SameReads s t ∧ t.mem.len = s.mem.len ∧ t.inQ = s.inQ ∧ t.outQ = s.outQ ∧
        t.requests = s.requests) ∧
    (∀ m1 m2, exec (.jt m1 m2) s = .next t ∨ exec (.jf m1 m2) s = .next t →
      SameReads s t ∧ t.mem.len = s.mem.len ∧ t.rb = s.rb ∧ t.inQ = s.inQ ∧ t.outQ = s.outQ ∧
        t.requests = s.requests) ∧
    (exec .hlt s = .next t →
      SameReads s t ∧ t.mem.len = s.mem.len ∧ t.pc = s.pc ∧ t.rb = s.rb ∧ t.inQ = s.inQ ∧
        t.outQ = s.outQ ∧ t.requests = s.requests)

/-! ### Rules about the whole machine -/

/-- R25: the memory invariants (a) to (d), and that every address reads what was last stored there,
or the image's word, or 0. -/
def Obligations.MemoryHoldsTheLastStores : Prop :=
  (∀ (m : Memory) (a : Nat), m.len ≤ a → m.read a = 0) ∧
  (∀ (m : Memory) (a b : Nat) (v : Word), m.len ≤ a →
    (m.len ≤ b → b < a → (m.write a v).read b = 0) ∧ (m.write a v).read a = v ∧
      a < (m.write a v).len) ∧
  (∀ (m : Memory) (a b : Nat) (v : Word), m.len ≤ a → b < m.len →
    (m.write a v).read b = m.read b ∧ b < (m.write a v).len) ∧
  (∀ (m : Memory) (stores : List (Nat × Word)),
    stores.Pairwise (fun c d => c.1 < d.1) → (∀ c ∈ stores, m.len ≤ c.1) →
    (∀ a, a < m.len →
      (stores.foldl (fun n c => n.write c.1 c.2) m).read a = m.read a) ∧
    (∀ a, m.len ≤ a → (∀ c ∈ stores, c.1 ≠ a) →
      (stores.foldl (fun n c => n.write c.1 c.2) m).read a = 0) ∧
    (∀ c ∈ stores, (stores.foldl (fun n c => n.write c.1 c.2) m).read c.1 = c.2)) ∧
  (∀ (image : List Word) (stores : List (Nat × Word)) (a : Nat),
    (stores.foldl (fun n c => n.write c.1 c.2) (Memory.ofImage image)).read a =
      match stores.reverse.find? (fun c => c.1 = a) with
      | some c => c.2
      | none => image.getD a 0)

/-- R15, R62: a step of a run leaves the output queue as it is, or it executes OUT and appends one
word. -/
def Obligations.OutputOnlyGrowsByOut : Prop :=
  ∀ s t : State, s.call = .running → step s = .next t →
    t.outQ = s.outQ ∨
      ∃ m1 v, decode (s.mem.read s.pc.toNat) = .ok (.out m1) ∧ t.outQ = s.outQ ++ [v]

/-- R14, R63: a step of a run leaves the input queue as it is, or it executes IN and removes its front
word, which is then the word the destination reads as. -/
def Obligations.InputOnlyLosesItsFrontToIn : Prop :=
  ∀ s t : State, s.call = .running → step s = .next t →
    t.inQ = s.inQ ∨
      ∃ m1 v d, decode (s.mem.read s.pc.toNat) = .ok (.inp m1) ∧ s.inQ = v :: t.inQ ∧
        storeAddrD s m1 = some d ∧ t.mem.read d = v

/-- R13, R69, 90_conflicts.md C4: nothing but ARB and a build changes `RB`. -/
def Obligations.OnlyArbAndBuildChangeTheRelativeBase : Prop :=
  ∀ s t : State, step s = .next t → t.rb ≠ s.rb →
    (s.call = .running ∧ ∃ m1, decode (s.mem.read s.pc.toNat) = .ok (.arb m1)) ∨
    (s.call ≠ .running ∧ ∃ image rest, s.requests = .build image :: rest)

/-- R66, R12: a step of a run leaves `PC`, or advances it by the width of the instruction it executed,
or executes JT or JF and writes the value of its second operand. -/
def Obligations.PcIsWrittenByWidthOrJump : Prop :=
  ∀ s t : State, s.call = .running → step s = .next t →
    t.pc = s.pc ∨
      ∃ i, decode (s.mem.read s.pc.toNat) = .ok i ∧
        (t.pc = wrap64 (s.pc.toInt + i.width) ∨
          ∃ m1 m2, (i = .jt m1 m2 ∨ i = .jf m1 m2) ∧ SourceValue s 2 m2 t.pc)

/-- R9's table, R11, R40: a step of a run changes what at most the one address reads as that the
operands of the instruction name, computed by `storeAddr` (which is `storeAddrSSD` for ADD, MUL, LT, EQ
and `storeAddrD` for IN), and only an instruction with a destination operand has one; where there is no
such address, or no instruction was decoded, every address reads as before. The current length never
falls. -/
def Obligations.AStepStoresOneWordAtMost : Prop :=
  ∀ s t : State, s.call = .running → step s = .next t →
    s.mem.len ≤ t.mem.len ∧
    (∀ i, 0 ≤ s.pc.toInt → decode (s.mem.read s.pc.toNat) = .ok i →
      (∀ d, storeAddr i s = some d → i.destMode ≠ none ∧ SameReadsBut d s t) ∧
      (storeAddr i s = none → SameReads s t)) ∧
    (s.pc.toInt < 0 ∨ (∀ i, decode (s.mem.read s.pc.toNat) ≠ .ok i) → SameReads s t)

/-- R26 (derived there from R27, R28, R83): two states that agree on `PC`, `RB`, both queues, the
model's two boundary fields and the word at every valid address go on agreeing for ever, whatever
their current lengths and however their memories are held. -/
def Obligations.CurrentLengthIsUnobservable : Prop :=
  ∀ s t : State, Agree s t → ∀ n : Nat, ∃ s' t' : State,
    Host.Core.run Sys2Proof.core n s = .next s' ∧ Host.Core.run Sys2Proof.core n t = .next t' ∧
      Agree s' t'

/-- R78, R82 and 95_test_vectors.md P2: the end of a program does not depend on how its input is
staged. If a run from `s` suspends in `t`, and a later run from `t` with `ws` pushed returns in `u`,
then one run from `s` with `ws` already behind its input returns in the same `u`. -/
def Obligations.InputStagingDoesNotMatter : Prop :=
  ∀ (n : Nat) (s t : State), s.call = .running → runLoop n s = some t →
    t.call = .returned (.outcome .awaitingInput) →
    ∀ (ws : List Word) (m : Nat) (u : State), runLoop m (resume (pushAll ws t)) = some u →
      ∃ k : Nat, runLoop k (s.setInQ (s.inQ ++ ws)) = some u

/-- R79, R105, R74: when a run returns, every step before the last has continued, so its end is an
ordinary state: running it further changes nothing, and the outcome it carries is one of the three
kinds (R75). -/
def Obligations.ARunEndsInAnOutcomeOfItsOwn : Prop :=
  ∀ (n : Nat) (s t : State), s.call = .running → runLoop n s = some t →
    (∃ o : RunOutcome, t.call = .returned (.outcome o)) ∧
      (∀ m : Nat, n ≤ m → runLoop m s = some t) ∧ t.requests = s.requests

/-! ### The invariant -/

/-- The invariant at reset (the model's canonical form, log 2; R9's range of the current length). -/
def Obligations.InvHoldsAtReset : Prop := Inv State.reset

/-- R9, R11, R28, and the model's canonical form (log 2): every step, the engine's or the host's, keeps
memory canonical and the current length within 0 .. 2^63. -/
def Obligations.EveryStepKeepsInv : Prop :=
  ∀ s t : State, Inv s → step s = .next t → Inv t

/-- The model's canonical form (log 2): two canonical memories of one length that read alike are
equal data. -/
def Obligations.CanonicalMemoriesThatReadAlikeAreEqual : Prop :=
  ∀ m n : Memory, m.wf → n.wf → m.len = n.len → (∀ a : Nat, m.read a = n.read a) → m = n

/-! ### The host's transactions (46_host_interface.md, 10_state.md) -/

/-- The model's choice of the state after reset (log 20): R21's values for the empty image. -/
def Obligations.ResetIsTheEmptyBuild : Prop :=
  State.reset.mem.len = 0 ∧ (∀ a : Nat, State.reset.mem.read a = 0) ∧ State.reset.pc = 0 ∧
    State.reset.rb = 0 ∧ State.reset.inQ = [] ∧ State.reset.outQ = []

/-- R21: the state immediately after build, and the entry point. That a build may be asked of an
instance already in use is the spec's choice D23, and that the host's further transactions stay pending
is the model's own (log 19). -/
def Obligations.BuildGivesTheResetState : Prop :=
  ∀ (s : State) (image : List Word) (rest : List Transaction),
    s.call ≠ .running → s.requests = .build image :: rest →
    ∃ t, step s = .next t ∧ t.mem.len = image.length ∧
      (∀ (a : Nat) (v : Word), image[a]? = some v → t.mem.read a = v) ∧
      t.pc = 0 ∧ t.rb = 0 ∧ t.inQ = [] ∧ t.outQ = [] ∧
      t.call = .returned .done ∧ t.requests = rest

/-- R85, R92 with D15 (log 18): peek answers the word at a valid address and InvalidAddress at a
negative one, and changes nothing of the instance. -/
def Obligations.PeekReadsOneWord : Prop :=
  ∀ (s : State) (a : Word) (rest : List Transaction),
    s.call ≠ .running → s.requests = .peek a :: rest →
    (0 ≤ a.toInt →
      step s = .next { s with call := .returned (.word (s.mem.read a.toNat)), requests := rest }) ∧
    (a.toInt < 0 →
      step s = .next { s with call := .returned (.error .invalidAddress), requests := rest })

/-- R86, R92 with D15 (log 18): poke stores at a valid address, growing the memory to hold it, and
answers InvalidAddress at a negative one with nothing changed. -/
def Obligations.PokeStoresOneWord : Prop :=
  ∀ (s : State) (a v : Word) (rest : List Transaction),
    s.call ≠ .running → s.requests = .poke a v :: rest →
    (0 ≤ a.toInt → ∃ t, step s = .next t ∧
      (∀ b : Nat, t.mem.read b = if b = a.toNat then v else s.mem.read b) ∧
      t.mem.len = max s.mem.len (a.toNat + 1) ∧
      t.pc = s.pc ∧ t.rb = s.rb ∧ t.inQ = s.inQ ∧ t.outQ = s.outQ ∧
      t.call = .returned .done ∧ t.requests = rest) ∧
    (a.toInt < 0 →
      step s = .next { s with call := .returned (.error .invalidAddress), requests := rest })

/-- R87: push_input appends at the back, whatever the last outcome was, and starts nothing. -/
def Obligations.PushInputAppends : Prop :=
  ∀ (s : State) (v : Word) (rest : List Transaction),
    s.call ≠ .running → s.requests = .pushInput v :: rest →
    step s = .next { s with inQ := s.inQ ++ [v], call := .returned .done, requests := rest }

/-- R88 with D16 (log 18): drain_output returns the whole output queue and leaves it; a second call
returns the same, whatever the host asked in between that is no run, no clear_output and no build (which
makes a new instance, R84; D23, log 19); and after a further run the queue is the earlier one followed by
new words. -/
def Obligations.DrainOutputLeavesTheQueue : Prop :=
  (∀ (s : State) (rest : List Transaction),
    s.call ≠ .running → s.requests = .drainOutput :: rest →
    step s = .next { s with call := .returned (.output s.outQ), requests := rest }) ∧
  (∀ (s : State) (between rest : List Transaction),
    s.call ≠ .running → s.requests = .drainOutput :: (between ++ .drainOutput :: rest) →
    (∀ r ∈ between, r ≠ .run ∧ r ≠ .clearOutput ∧ ∀ image, r ≠ .build image) →
    ∃ t u : State, step s = .next t ∧
      Host.Core.run Sys2Proof.core (between.length + 1) t = .next u ∧
      t.call = .returned (.output s.outQ) ∧ u.call = .returned (.output s.outQ) ∧
      u.outQ = s.outQ ∧ u.requests = rest) ∧
  (∀ (n : Nat) (s t : State), s.call = .running → runLoop n s = some t →
    ∃ new : List Word, t.outQ = s.outQ ++ new)

/-- R89 with D16 (log 18): clear_output empties the output queue and nothing else; R90, R74: run starts
the engine and resets nothing. -/
def Obligations.ClearOutputAndRun : Prop :=
  (∀ (s : State) (rest : List Transaction),
    s.call ≠ .running → s.requests = .clearOutput :: rest →
    step s = .next { s with outQ := [], call := .returned .done, requests := rest }) ∧
  (∀ (s : State) (rest : List Transaction),
    s.call ≠ .running → s.requests = .run :: rest →
    step s = .next { s with call := .running, requests := rest })

/-- R112, R80, the model's idle step (log 6): with no run in progress and nothing asked, all state
survives unchanged. -/
def Obligations.AnIdleInstanceKeepsItsState : Prop :=
  ∀ s : State, s.call ≠ .running → s.requests = [] → step s = .next s

/-- R94, R63, R119 (log 22): with no run in progress on either, relaying moves the giver's whole output,
in order, behind the taker's input, and starts neither; nothing else of either instance changes but what
the last transaction returned. With a run in progress on either, the model has no such move (its choice
where R118 and U9 give no meaning, log 21, 22). -/
def Obligations.RelayKeepsTheOrder : Prop :=
  ∀ a b : State,
    (a.call ≠ .running → b.call ≠ .running →
      ∃ taker : State,
        relay a b = some ({ a with outQ := [], call := .returned .done }, taker) ∧
        taker.inQ = b.inQ ++ a.outQ ∧ taker.mem = b.mem ∧ taker.pc = b.pc ∧ taker.rb = b.rb ∧
        taker.outQ = b.outQ ∧ taker.requests = b.requests ∧ taker.call ≠ .running) ∧
    (a.call = .running ∨ b.call = .running → relay a b = none)
end

