-- ==== Sys2Proof/Laws/Decode.lean ====
section
/-! SUPPORT. The decoder's parts, one lemma each (R43, R44, R46). -/

namespace Sys2Proof

theorem Mode.digit_le (m : Mode) : m.digit ≤ 2 := by cases m <;> decide

theorem modeOfDigit_digit (m : Mode) : modeOfDigit m.digit = .ok m := by cases m <;> rfl

/-- R46, R50: a digit is a mode's exactly when it is that mode's own digit. -/
theorem modeOfDigit_eq_ok (d : Nat) (m : Mode) : modeOfDigit d = .ok m ↔ d = m.digit := by
  constructor
  · intro h
    match d, h with
    | 0, h => cases h; rfl
    | 1, h => cases h; rfl
    | 2, h => cases h; rfl
    | _ + 3, h => cases h
  · rintro rfl
    exact modeOfDigit_digit m

/-- R50: the only rejection of a digit, and when. -/
theorem modeOfDigit_eq_error (d : Nat) (e : DecodeError) :
    modeOfDigit d = .error e ↔ e = .invalidMode ∧ 3 ≤ d := by
  match d with
  | 0 => simp [modeOfDigit]
  | 1 => simp [modeOfDigit]
  | 2 => simp [modeOfDigit]
  | _ + 3 => simp [modeOfDigit, eq_comm]

theorem modeAt_eq_ok (n k : Nat) (m : Mode) : modeAt n k = .ok m ↔ dig n (k + 1) = m.digit :=
  modeOfDigit_eq_ok _ m

theorem modeAt_eq_error (n k : Nat) (e : DecodeError) :
    modeAt n k = .error e ↔ e = .invalidMode ∧ 3 ≤ dig n (k + 1) := modeOfDigit_eq_error _ e

/-- R44: what decoding one, two and three operand positions can answer. -/
theorem decode1_cases (n : Nat) (f : Mode → Instr) (r : Except DecodeError Instr) (h : decode1 n f = r) :
    (∃ m1, dig n 2 = m1.digit ∧ r = .ok (f m1)) ∨ (3 ≤ dig n 2 ∧ r = .error .invalidMode) := by
  subst h
  cases h1 : modeAt n 1 with
  | error e =>
    obtain ⟨rfl, hd⟩ := (modeAt_eq_error _ _ _).1 h1
    exact .inr ⟨hd, by simp [decode1, h1, Bind.bind, Except.bind]⟩
  | ok m1 =>
    exact .inl ⟨m1, (modeAt_eq_ok _ _ _).1 h1, by simp [decode1, h1, Bind.bind, Except.bind, pure, Except.pure]⟩

theorem decode2_cases (n : Nat) (f : Mode → Mode → Instr) (r : Except DecodeError Instr)
    (h : decode2 n f = r) :
    (∃ m1 m2, dig n 2 = m1.digit ∧ dig n 3 = m2.digit ∧ r = .ok (f m1 m2)) ∨
      ((3 ≤ dig n 2 ∨ 3 ≤ dig n 3) ∧ r = .error .invalidMode) := by
  subst h
  cases h1 : modeAt n 1 with
  | error e =>
    obtain ⟨rfl, hd⟩ := (modeAt_eq_error _ _ _).1 h1
    exact .inr ⟨.inl hd, by simp [decode2, h1, Bind.bind, Except.bind]⟩
  | ok m1 =>
    cases h2 : modeAt n 2 with
    | error e =>
      obtain ⟨rfl, hd⟩ := (modeAt_eq_error _ _ _).1 h2
      exact .inr ⟨.inr hd, by simp [decode2, h1, h2, Bind.bind, Except.bind]⟩
    | ok m2 =>
      exact .inl ⟨m1, m2, (modeAt_eq_ok _ _ _).1 h1, (modeAt_eq_ok _ _ _).1 h2,
        by simp [decode2, h1, h2, Bind.bind, Except.bind, pure, Except.pure]⟩

theorem decode3_cases (n : Nat) (f : Mode → Mode → Mode → Instr) (r : Except DecodeError Instr)
    (h : decode3 n f = r) :
    (∃ m1 m2 m3, dig n 2 = m1.digit ∧ dig n 3 = m2.digit ∧ dig n 4 = m3.digit ∧
        r = .ok (f m1 m2 m3)) ∨
      ((3 ≤ dig n 2 ∨ 3 ≤ dig n 3 ∨ 3 ≤ dig n 4) ∧ r = .error .invalidMode) := by
  subst h
  cases h1 : modeAt n 1 with
  | error e =>
    obtain ⟨rfl, hd⟩ := (modeAt_eq_error _ _ _).1 h1
    exact .inr ⟨.inl hd, by simp [decode3, h1, Bind.bind, Except.bind]⟩
  | ok m1 =>
    cases h2 : modeAt n 2 with
    | error e =>
      obtain ⟨rfl, hd⟩ := (modeAt_eq_error _ _ _).1 h2
      exact .inr ⟨.inr (.inl hd), by simp [decode3, h1, h2, Bind.bind, Except.bind]⟩
    | ok m2 =>
      cases h3 : modeAt n 3 with
      | error e =>
        obtain ⟨rfl, hd⟩ := (modeAt_eq_error _ _ _).1 h3
        exact .inr ⟨.inr (.inr hd), by simp [decode3, h1, h2, h3, Bind.bind, Except.bind]⟩
      | ok m3 =>
        exact .inl ⟨m1, m2, m3, (modeAt_eq_ok _ _ _).1 h1, (modeAt_eq_ok _ _ _).1 h2,
          (modeAt_eq_ok _ _ _).1 h3,
          by simp [decode3, h1, h2, h3, Bind.bind, Except.bind, pure, Except.pure]⟩

/-- R44: the code decides which positions are decoded; every other code is InvalidOpcode (R48). -/
theorem decodeNat_cases (n : Nat) :
    (n % 100 = 1 ∧ decodeNat n = decode3 n .add) ∨ (n % 100 = 2 ∧ decodeNat n = decode3 n .mul) ∨
    (n % 100 = 3 ∧ decodeNat n = decode1 n .inp) ∨ (n % 100 = 4 ∧ decodeNat n = decode1 n .out) ∨
    (n % 100 = 5 ∧ decodeNat n = decode2 n .jt) ∨ (n % 100 = 6 ∧ decodeNat n = decode2 n .jf) ∨
    (n % 100 = 7 ∧ decodeNat n = decode3 n .lt) ∨ (n % 100 = 8 ∧ decodeNat n = decode3 n .eq) ∨
    (n % 100 = 9 ∧ decodeNat n = decode1 n .arb) ∨ (n % 100 = 99 ∧ decodeNat n = .ok .hlt) ∨
    ((n % 100 = 0 ∨ (10 ≤ n % 100 ∧ n % 100 ≤ 98)) ∧ decodeNat n = .error .invalidOpcode) := by
  have hlt : n % 100 < 100 := Nat.mod_lt _ (by decide)
  unfold decodeNat
  split <;> simp_all
  omega

end Sys2Proof
end

