-- ==== Sys2Proof/Laws/Memory.lean ====
section
/-! SUPPORT. What reading, storing and building do to memory (R21, R25, R27, R28), and that each keeps
the canonical form. The reading laws hold of every memory, canonical or not. -/

namespace Sys2Proof.Machine

/-! ### Lists of cells -/

theorem lookupCell_filter_ne (cells : List Cell) (a b : Nat) (h : b ≠ a) :
    lookupCell (cells.filter (fun c => c.1 ≠ a)) b = lookupCell cells b := by
  induction cells with
  | nil => rfl
  | cons c rest ih =>
    obtain ⟨x, u⟩ := c
    by_cases hx : x = a
    · have hb : ¬ a = b := fun h' => h h'.symm
      simpa [List.filter_cons, hx, lookupCell, hb] using ih
    · simp only [List.filter_cons, hx, ne_eq, not_false_eq_true, decide_true, if_true, lookupCell]
      by_cases hb : x = b <;> simp_all

theorem lookupCell_of_absent (cells : List Cell) (a : Nat) (h : ∀ c ∈ cells, c.1 ≠ a) :
    lookupCell cells a = Config.unlisted := by
  induction cells with
  | nil => rfl
  | cons c rest ih =>
    have h1 := h c (by simp)
    simp only [lookupCell, h1, if_false]
    exact ih (fun d hd => h d (by simp [hd]))

theorem lookupCell_insertCell_same (cells : List Cell) (a : Nat) (v : Word)
    (h : ∀ c ∈ cells, c.1 ≠ a) : lookupCell (insertCell cells a v) a = v := by
  induction cells with
  | nil => simp [insertCell, lookupCell]
  | cons c rest ih =>
    obtain ⟨x, u⟩ := c
    have h1 : x ≠ a := h (x, u) (by simp)
    by_cases hx : a < x
    · simp [insertCell, hx, lookupCell]
    · simpa [insertCell, hx, lookupCell, h1] using ih (fun d hd => h d (by simp [hd]))

theorem lookupCell_insertCell_other (cells : List Cell) (a b : Nat) (v : Word) (h : b ≠ a) :
    lookupCell (insertCell cells a v) b = lookupCell cells b := by
  induction cells with
  | nil => simp [insertCell, lookupCell, h.symm]
  | cons c rest ih =>
    obtain ⟨x, u⟩ := c
    by_cases hx : a < x
    · simp [insertCell, hx, lookupCell, h.symm]
    · simp [insertCell, hx, lookupCell, ih]

theorem mem_insertCell (cells : List Cell) (a : Nat) (v : Word) (c : Cell) :
    c ∈ insertCell cells a v ↔ c = (a, v) ∨ c ∈ cells := by
  induction cells with
  | nil => simp [insertCell]
  | cons d rest ih =>
    obtain ⟨x, u⟩ := d
    by_cases hx : a < x
    · simp [insertCell, hx]
    · simp only [insertCell, hx, if_false, List.mem_cons, ih]
      tauto

theorem insertCell_rising (cells : List Cell) (a : Nat) (v : Word)
    (h : cells.Pairwise (fun c d => c.1 < d.1)) (ha : ∀ c ∈ cells, c.1 ≠ a) :
    (insertCell cells a v).Pairwise (fun c d => c.1 < d.1) := by
  induction cells with
  | nil => simp [insertCell]
  | cons c rest ih =>
    obtain ⟨x, u⟩ := c
    have hx : x ≠ a := ha (x, u) (by simp)
    rw [List.pairwise_cons] at h
    by_cases hlt : a < x
    · simp only [insertCell, hlt, if_true, List.pairwise_cons]
      refine ⟨?_, h⟩
      intro d hd
      rcases List.mem_cons.1 hd with rfl | hd
      · exact hlt
      · exact lt_trans hlt (h.1 d hd)
    · simp only [insertCell, hlt, if_false, List.pairwise_cons]
      refine ⟨?_, ih h.2 (fun d hd => ha d (by simp [hd]))⟩
      intro d hd
      rcases (mem_insertCell _ _ _ _).1 hd with rfl | hd
      · show x < a
        omega
      · exact h.1 d hd

theorem lookupCell_setCell (cells : List Cell) (a b : Nat) (v : Word) :
    lookupCell (setCell cells a v) b = if b = a then v else lookupCell cells b := by
  have habs : ∀ c ∈ cells.filter (fun c => c.1 ≠ a), c.1 ≠ a := by
    intro c hc
    simpa using (List.mem_filter.1 hc).2
  unfold setCell
  by_cases hb : b = a
  · subst hb
    by_cases hv : v = Config.unlisted
    · simpa [hv] using lookupCell_of_absent _ _ habs
    · simpa [hv] using lookupCell_insertCell_same _ _ v habs
  · by_cases hv : v = Config.unlisted
    · simpa [hv, hb] using lookupCell_filter_ne cells a b hb
    · simpa [hv, hb, lookupCell_insertCell_other _ _ _ _ hb] using lookupCell_filter_ne cells a b hb

/-! ### Reading -/

theorem Memory.read_of_len_le (m : Memory) (a : Nat) (h : m.len ≤ a) : m.read a = Config.unlisted := by
  simp [Memory.read, Nat.not_lt.2 h]

theorem lookupCell_filter_below (cells : List Cell) (n b : Nat) (h : b < n) :
    lookupCell (cells.filter (fun c => c.1 < n)) b = lookupCell cells b := by
  induction cells with
  | nil => rfl
  | cons c rest ih =>
    obtain ⟨x, u⟩ := c
    by_cases hx : x < n
    · by_cases hb : x = b <;> simp_all [lookupCell]
    · have hb : ¬ x = b := by omega
      simpa [List.filter_cons, hx, lookupCell, hb] using ih

/-- R25 (c): growth changes what no address reads as. -/
theorem Memory.read_zeroFill (m : Memory) (a b : Nat) : (m.zeroFill a).read b = m.read b := by
  unfold Memory.zeroFill
  by_cases ha : a < m.len
  · simp [ha]
  · simp only [ha, if_false, Memory.read]
    by_cases hb : b < m.len
    · have : b < a + 1 := by omega
      simp [hb, this, lookupCell_filter_below _ _ _ hb]
    · simp only [hb, if_false]
      by_cases hb' : b < a + 1
      · simp only [hb', if_true]
        apply lookupCell_of_absent
        intro c hc
        have := (List.mem_filter.1 hc).2
        simp at this
        omega
      · simp [hb']

theorem Memory.len_zeroFill (m : Memory) (a : Nat) :
    (m.zeroFill a).len = if a < m.len then m.len else a + 1 := by
  unfold Memory.zeroFill
  split <;> rfl

/-- R28: the length after a store. -/
theorem Memory.len_write (m : Memory) (a : Nat) (v : Word) :
    (m.write a v).len = if a < m.len then m.len else a + 1 := Memory.len_zeroFill m a

/-- R25: a store is read back, and leaves every other address as it was. -/
theorem Memory.read_write (m : Memory) (a b : Nat) (v : Word) :
    (m.write a v).read b = if b = a then v else m.read b := by
  have hlen := Memory.len_zeroFill m a
  have hz := Memory.read_zeroFill m a b
  simp only [Memory.write, Memory.read, lookupCell_setCell] at *
  by_cases hb : b = a
  · subst hb
    have : b < (m.zeroFill b).len := by rw [hlen]; split <;> omega
    simp [this]
  · simpa [hb] using hz

@[simp] theorem Memory.read_write_same (m : Memory) (a : Nat) (v : Word) :
    (m.write a v).read a = v := by simp [Memory.read_write]

theorem Memory.read_write_other (m : Memory) (a b : Nat) (v : Word) (h : b ≠ a) :
    (m.write a v).read b = m.read b := by simp [Memory.read_write, h]

theorem lookupCell_imageCells (image : List Word) (k a : Nat) :
    lookupCell (imageCells k image) a =
      if k ≤ a then image.getD (a - k) Config.unlisted else Config.unlisted := by
  induction image generalizing k with
  | nil => simp [imageCells, lookupCell]
  | cons v rest ih =>
    have step : (if k = a then v else lookupCell (imageCells (k + 1) rest) a) =
        if k ≤ a then (v :: rest).getD (a - k) Config.unlisted else Config.unlisted := by
      rw [ih]
      rcases Nat.lt_trichotomy k a with h | h | h
      · obtain ⟨j, rfl⟩ : ∃ j, a = k + 1 + j := ⟨a - (k + 1), by omega⟩
        have e1 : k + 1 + j - (k + 1) = j := by omega
        have e2 : k + 1 + j - k = j + 1 := by omega
        have e3 : k ≠ k + 1 + j := by omega
        have e4 : k + 1 ≤ k + 1 + j := by omega
        have e5 : k ≤ k + 1 + j := by omega
        simp only [e1, e2, e3, e4, e5, if_true, if_false, List.getD_cons_succ]
      · subst h
        simp
      · have e1 : ¬ k = a := by omega
        have e2 : ¬ k + 1 ≤ a := by omega
        have e3 : ¬ k ≤ a := by omega
        simp [e1, e2, e3]
    by_cases hv : v = Config.unlisted
    · rw [← step]
      simp only [imageCells, hv, if_true]
      by_cases hk : k = a
      · rw [ih, if_neg (by omega), if_pos hk]
      · rw [if_neg hk]
    · simpa [imageCells, hv, lookupCell] using step

/-- R21: the image at its own addresses, 0 everywhere else. -/
theorem Memory.read_ofImage (image : List Word) (a : Nat) :
    (Memory.ofImage image).read a = image.getD a Config.unlisted := by
  simp only [Memory.read, Memory.ofImage, lookupCell_imageCells, Nat.zero_le, if_true, Nat.sub_zero]
  by_cases h : a < image.length
  · simp [h]
  · simp [h]

/-! ### The canonical form -/

theorem mem_imageCells (image : List Word) (k : Nat) (c : Cell) (h : c ∈ imageCells k image) :
    k ≤ c.1 ∧ c.1 < k + image.length ∧ c.2 ≠ Config.unlisted := by
  induction image generalizing k with
  | nil => simp [imageCells] at h
  | cons v rest ih =>
    by_cases hv : v = Config.unlisted
    · simp only [imageCells, hv, if_true] at h
      have := ih (k + 1) h
      simp only [List.length_cons]
      exact ⟨by omega, by omega, this.2.2⟩
    · simp only [imageCells, hv, if_false, List.mem_cons] at h
      rcases h with rfl | h
      · simp [hv]
      · have := ih (k + 1) h
        simp only [List.length_cons]
        exact ⟨by omega, by omega, this.2.2⟩

theorem imageCells_rising (image : List Word) (k : Nat) :
    (imageCells k image).Pairwise (fun c d => c.1 < d.1) := by
  induction image generalizing k with
  | nil => simp [imageCells]
  | cons v rest ih =>
    by_cases hv : v = Config.unlisted
    · simpa [imageCells, hv] using ih (k + 1)
    · simp only [imageCells, hv, if_false, List.pairwise_cons]
      refine ⟨fun d hd => ?_, ih (k + 1)⟩
      have := mem_imageCells _ _ _ hd
      show k < d.1
      omega

theorem Memory.wf_ofImage (image : List Word) : (Memory.ofImage image).wf :=
  ⟨imageCells_rising image 0, fun c hc => (mem_imageCells _ _ c hc).2.2,
    fun c hc => by simpa [Memory.ofImage] using (mem_imageCells _ _ c hc).2.1⟩

theorem Memory.wf_zeroFill (m : Memory) (a : Nat) (h : m.wf) : (m.zeroFill a).wf := by
  obtain ⟨h1, h2, h3⟩ := h
  unfold Memory.zeroFill
  by_cases ha : a < m.len
  · simpa [ha] using ⟨h1, h2, h3⟩
  · rw [if_neg ha]
    refine ⟨h1.filter _, fun c hc => h2 c (List.mem_filter.1 hc).1, fun c hc => ?_⟩
    have := h3 c (List.mem_filter.1 hc).1
    show c.1 < a + 1
    omega

theorem mem_setCell (cells : List Cell) (a : Nat) (v : Word) (c : Cell) (h : c ∈ setCell cells a v) :
    (c = (a, v) ∧ v ≠ Config.unlisted) ∨ c ∈ cells := by
  unfold setCell at h
  by_cases hv : v = Config.unlisted
  · simp only [hv, if_true] at h
    exact .inr (List.mem_filter.1 h).1
  · simp only [hv, if_false, mem_insertCell] at h
    rcases h with h | h
    · exact .inl ⟨h, hv⟩
    · exact .inr (List.mem_filter.1 h).1

/-- Every store keeps the canonical form. -/
theorem Memory.wf_write (m : Memory) (a : Nat) (v : Word) (h : m.wf) : (m.write a v).wf := by
  have hz := Memory.wf_zeroFill m a h
  obtain ⟨h1, h2, h3⟩ := hz
  refine ⟨?_, fun c hc => ?_, fun c hc => ?_⟩
  · show (setCell (m.zeroFill a).cells a v).Pairwise _
    unfold setCell
    split
    · exact h1.filter _
    · exact insertCell_rising _ _ _ (h1.filter _) (fun c hc => by simpa using (List.mem_filter.1 hc).2)
  · rcases mem_setCell _ _ _ _ hc with ⟨rfl, hv⟩ | hc
    · exact hv
    · exact h2 c hc
  · rcases mem_setCell _ _ _ _ hc with ⟨rfl, hv⟩ | hc
    · show a < (m.zeroFill a).len
      rw [Memory.len_zeroFill]
      split <;> omega
    · exact h3 c hc

/-! ### Exact addresses -/

/-- R24, both ways round. -/
theorem validAddr_eq_ok (a : Int) (n : Nat) :
    validAddr a = .ok n ↔ 0 ≤ a ∧ a ≤ 9223372036854775807 ∧ n = a.toNat := by
  unfold validAddr Config.addrMin Config.addrMax
  split
  · simp; omega
  · split
    · simp; omega
    · simp only [Except.ok.injEq]
      constructor
      · rintro rfl; exact ⟨by omega, by omega, rfl⟩
      · rintro ⟨_, _, rfl⟩; rfl

/-- R24: the only error is InvalidAddress, and it is for exactly the other integers. -/
theorem validAddr_eq_error (a : Int) (k : Fault) :
    validAddr a = .error k ↔ k = .invalidAddress ∧ ¬ (0 ≤ a ∧ a ≤ 9223372036854775807) := by
  unfold validAddr Config.addrMin Config.addrMax
  split
  · simp only [Except.error.injEq]
    constructor
    · rintro rfl; exact ⟨rfl, by omega⟩
    · rintro ⟨rfl, _⟩; rfl
  · split
    · simp only [Except.error.injEq]
      constructor
      · rintro rfl; exact ⟨rfl, by omega⟩
      · rintro ⟨rfl, _⟩; rfl
    · simp; omega

theorem memRead_eq_ok (m : Memory) (a : Int) (v : Word) :
    memRead m a = .ok v ↔ 0 ≤ a ∧ a ≤ 9223372036854775807 ∧ v = m.read a.toNat := by
  unfold memRead
  cases h : validAddr a with
  | error k =>
    simp only [Bind.bind, Except.bind, reduceCtorEq, false_iff]
    rintro ⟨h1, h2, -⟩
    exact ((validAddr_eq_error a k).1 h).2 ⟨h1, h2⟩
  | ok n =>
    obtain ⟨h1, h2, rfl⟩ := (validAddr_eq_ok a n).1 h
    simp [Bind.bind, Except.bind, pure, Except.pure, h1, h2, eq_comm]

theorem memRead_eq_error (m : Memory) (a : Int) (k : Fault) :
    memRead m a = .error k ↔ k = .invalidAddress ∧ ¬ (0 ≤ a ∧ a ≤ 9223372036854775807) := by
  unfold memRead
  cases h : validAddr a with
  | error j => rw [← validAddr_eq_error]; simp [Bind.bind, Except.bind, h]
  | ok n => rw [← validAddr_eq_error]; simp [Bind.bind, Except.bind, pure, Except.pure, h]

theorem memWrite_eq_ok (m m' : Memory) (a : Int) (v : Word) :
    memWrite m a v = .ok m' ↔ 0 ≤ a ∧ a ≤ 9223372036854775807 ∧ m' = m.write a.toNat v := by
  unfold memWrite
  cases h : validAddr a with
  | error k =>
    simp only [Bind.bind, Except.bind, reduceCtorEq, false_iff]
    rintro ⟨h1, h2, -⟩
    exact ((validAddr_eq_error a k).1 h).2 ⟨h1, h2⟩
  | ok n =>
    obtain ⟨h1, h2, rfl⟩ := (validAddr_eq_ok a n).1 h
    simp [Bind.bind, Except.bind, pure, Except.pure, h1, h2, eq_comm]

theorem memWrite_eq_error (m : Memory) (a : Int) (v : Word) (k : Fault) :
    memWrite m a v = .error k ↔ k = .invalidAddress ∧ ¬ (0 ≤ a ∧ a ≤ 9223372036854775807) := by
  unfold memWrite
  cases h : validAddr a with
  | error j => rw [← validAddr_eq_error]; simp [Bind.bind, Except.bind, h]
  | ok n => rw [← validAddr_eq_error]; simp [Bind.bind, Except.bind, pure, Except.pure, h]

end Sys2Proof.Machine
end

