-- ==== Sys2Proof/Laws/State.lean ====
section
/-! SUPPORT. One lemma for each field under each update of a state, and under the operations made of
them. -/

namespace Sys2Proof.Machine

@[simp] theorem State.setMem_mem (s : State) (m : Memory) : (s.setMem m).mem = m := rfl
@[simp] theorem State.setMem_pc (s : State) (m : Memory) : (s.setMem m).pc = s.pc := rfl
@[simp] theorem State.setMem_rb (s : State) (m : Memory) : (s.setMem m).rb = s.rb := rfl
@[simp] theorem State.setMem_inQ (s : State) (m : Memory) : (s.setMem m).inQ = s.inQ := rfl
@[simp] theorem State.setMem_outQ (s : State) (m : Memory) : (s.setMem m).outQ = s.outQ := rfl
@[simp] theorem State.setMem_call (s : State) (m : Memory) : (s.setMem m).call = s.call := rfl
@[simp] theorem State.setMem_requests (s : State) (m : Memory) : (s.setMem m).requests = s.requests := rfl

@[simp] theorem State.setPc_mem (s : State) (v : Word) : (s.setPc v).mem = s.mem := rfl
@[simp] theorem State.setPc_pc (s : State) (v : Word) : (s.setPc v).pc = v := rfl
@[simp] theorem State.setPc_rb (s : State) (v : Word) : (s.setPc v).rb = s.rb := rfl
@[simp] theorem State.setPc_inQ (s : State) (v : Word) : (s.setPc v).inQ = s.inQ := rfl
@[simp] theorem State.setPc_outQ (s : State) (v : Word) : (s.setPc v).outQ = s.outQ := rfl
@[simp] theorem State.setPc_call (s : State) (v : Word) : (s.setPc v).call = s.call := rfl
@[simp] theorem State.setPc_requests (s : State) (v : Word) : (s.setPc v).requests = s.requests := rfl

@[simp] theorem State.setRb_mem (s : State) (v : Word) : (s.setRb v).mem = s.mem := rfl
@[simp] theorem State.setRb_pc (s : State) (v : Word) : (s.setRb v).pc = s.pc := rfl
@[simp] theorem State.setRb_rb (s : State) (v : Word) : (s.setRb v).rb = v := rfl
@[simp] theorem State.setRb_inQ (s : State) (v : Word) : (s.setRb v).inQ = s.inQ := rfl
@[simp] theorem State.setRb_outQ (s : State) (v : Word) : (s.setRb v).outQ = s.outQ := rfl
@[simp] theorem State.setRb_call (s : State) (v : Word) : (s.setRb v).call = s.call := rfl
@[simp] theorem State.setRb_requests (s : State) (v : Word) : (s.setRb v).requests = s.requests := rfl

@[simp] theorem State.setInQ_mem (s : State) (q : List Word) : (s.setInQ q).mem = s.mem := rfl
@[simp] theorem State.setInQ_pc (s : State) (q : List Word) : (s.setInQ q).pc = s.pc := rfl
@[simp] theorem State.setInQ_rb (s : State) (q : List Word) : (s.setInQ q).rb = s.rb := rfl
@[simp] theorem State.setInQ_inQ (s : State) (q : List Word) : (s.setInQ q).inQ = q := rfl
@[simp] theorem State.setInQ_outQ (s : State) (q : List Word) : (s.setInQ q).outQ = s.outQ := rfl
@[simp] theorem State.setInQ_call (s : State) (q : List Word) : (s.setInQ q).call = s.call := rfl
@[simp] theorem State.setInQ_requests (s : State) (q : List Word) : (s.setInQ q).requests = s.requests := rfl

@[simp] theorem State.setOutQ_mem (s : State) (q : List Word) : (s.setOutQ q).mem = s.mem := rfl
@[simp] theorem State.setOutQ_pc (s : State) (q : List Word) : (s.setOutQ q).pc = s.pc := rfl
@[simp] theorem State.setOutQ_rb (s : State) (q : List Word) : (s.setOutQ q).rb = s.rb := rfl
@[simp] theorem State.setOutQ_inQ (s : State) (q : List Word) : (s.setOutQ q).inQ = s.inQ := rfl
@[simp] theorem State.setOutQ_outQ (s : State) (q : List Word) : (s.setOutQ q).outQ = q := rfl
@[simp] theorem State.setOutQ_call (s : State) (q : List Word) : (s.setOutQ q).call = s.call := rfl
@[simp] theorem State.setOutQ_requests (s : State) (q : List Word) : (s.setOutQ q).requests = s.requests := rfl

@[simp] theorem State.setCall_mem (s : State) (c : Call) : (s.setCall c).mem = s.mem := rfl
@[simp] theorem State.setCall_pc (s : State) (c : Call) : (s.setCall c).pc = s.pc := rfl
@[simp] theorem State.setCall_rb (s : State) (c : Call) : (s.setCall c).rb = s.rb := rfl
@[simp] theorem State.setCall_inQ (s : State) (c : Call) : (s.setCall c).inQ = s.inQ := rfl
@[simp] theorem State.setCall_outQ (s : State) (c : Call) : (s.setCall c).outQ = s.outQ := rfl
@[simp] theorem State.setCall_call (s : State) (c : Call) : (s.setCall c).call = c := rfl
@[simp] theorem State.setCall_requests (s : State) (c : Call) : (s.setCall c).requests = s.requests := rfl

@[simp] theorem State.setRequests_mem (s : State) (l : List Transaction) : (s.setRequests l).mem = s.mem := rfl
@[simp] theorem State.setRequests_pc (s : State) (l : List Transaction) : (s.setRequests l).pc = s.pc := rfl
@[simp] theorem State.setRequests_rb (s : State) (l : List Transaction) : (s.setRequests l).rb = s.rb := rfl
@[simp] theorem State.setRequests_inQ (s : State) (l : List Transaction) : (s.setRequests l).inQ = s.inQ := rfl
@[simp] theorem State.setRequests_outQ (s : State) (l : List Transaction) : (s.setRequests l).outQ = s.outQ := rfl
@[simp] theorem State.setRequests_call (s : State) (l : List Transaction) : (s.setRequests l).call = s.call := rfl
@[simp] theorem State.setRequests_requests (s : State) (l : List Transaction) : (s.setRequests l).requests = l := rfl

@[simp] theorem State.advance_mem (s : State) (n : Nat) : (s.advance n).mem = s.mem := rfl
@[simp] theorem State.advance_pc (s : State) (n : Nat) : (s.advance n).pc = wrap64 (s.pc.toInt + n) := rfl
@[simp] theorem State.advance_rb (s : State) (n : Nat) : (s.advance n).rb = s.rb := rfl
@[simp] theorem State.advance_inQ (s : State) (n : Nat) : (s.advance n).inQ = s.inQ := rfl
@[simp] theorem State.advance_outQ (s : State) (n : Nat) : (s.advance n).outQ = s.outQ := rfl
@[simp] theorem State.advance_call (s : State) (n : Nat) : (s.advance n).call = s.call := rfl
@[simp] theorem State.advance_requests (s : State) (n : Nat) : (s.advance n).requests = s.requests := rfl

@[simp] theorem returnRun_mem (o : RunOutcome) (s : State) : (returnRun o s).mem = s.mem := rfl
@[simp] theorem returnRun_pc (o : RunOutcome) (s : State) : (returnRun o s).pc = s.pc := rfl
@[simp] theorem returnRun_rb (o : RunOutcome) (s : State) : (returnRun o s).rb = s.rb := rfl
@[simp] theorem returnRun_inQ (o : RunOutcome) (s : State) : (returnRun o s).inQ = s.inQ := rfl
@[simp] theorem returnRun_outQ (o : RunOutcome) (s : State) : (returnRun o s).outQ = s.outQ := rfl
@[simp] theorem returnRun_call (o : RunOutcome) (s : State) : (returnRun o s).call = .returned (.outcome o) := rfl
@[simp] theorem returnRun_requests (o : RunOutcome) (s : State) : (returnRun o s).requests = s.requests := rfl

@[simp] theorem raise_mem (k : Fault) (s : State) : (raise k s).mem = s.mem := rfl
@[simp] theorem raise_pc (k : Fault) (s : State) : (raise k s).pc = s.pc := rfl
@[simp] theorem raise_rb (k : Fault) (s : State) : (raise k s).rb = s.rb := rfl
@[simp] theorem raise_inQ (k : Fault) (s : State) : (raise k s).inQ = s.inQ := rfl
@[simp] theorem raise_outQ (k : Fault) (s : State) : (raise k s).outQ = s.outQ := rfl
@[simp] theorem raise_call (k : Fault) (s : State) : (raise k s).call = .returned (.outcome (.fatal k)) := rfl
@[simp] theorem raise_requests (k : Fault) (s : State) : (raise k s).requests = s.requests := rfl

@[simp] theorem resume_mem (s : State) : (resume s).mem = s.mem := rfl
@[simp] theorem resume_pc (s : State) : (resume s).pc = s.pc := rfl
@[simp] theorem resume_rb (s : State) : (resume s).rb = s.rb := rfl
@[simp] theorem resume_inQ (s : State) : (resume s).inQ = s.inQ := rfl
@[simp] theorem resume_outQ (s : State) : (resume s).outQ = s.outQ := rfl
@[simp] theorem resume_call (s : State) : (resume s).call = .running := rfl
@[simp] theorem resume_requests (s : State) : (resume s).requests = s.requests := rfl

@[simp] theorem reply_mem (r : Reply) (s : State) : (reply r s).mem = s.mem := rfl
@[simp] theorem reply_pc (r : Reply) (s : State) : (reply r s).pc = s.pc := rfl
@[simp] theorem reply_rb (r : Reply) (s : State) : (reply r s).rb = s.rb := rfl
@[simp] theorem reply_inQ (r : Reply) (s : State) : (reply r s).inQ = s.inQ := rfl
@[simp] theorem reply_outQ (r : Reply) (s : State) : (reply r s).outQ = s.outQ := rfl
@[simp] theorem reply_call (r : Reply) (s : State) : (reply r s).call = .returned r := rfl
@[simp] theorem reply_requests (r : Reply) (s : State) : (reply r s).requests = s.requests := rfl

end Sys2Proof.Machine
end

