-- ==== Sys2Proof/Laws/Operands.lean ====
section
/-! SUPPORT. Everything the operand functions can answer, in the terms of R31 to R34, and that they
depend on nothing but memory, `PC` and `RB`. -/

namespace Sys2Proof.Machine

/-- `Except`'s bind answers a value exactly when both of its parts do. -/
theorem bind_eq_ok {ε α β : Type} (x : Except ε α) (f : α → Except ε β) (b : β) :
    x.bind f = .ok b ↔ ∃ a, x = .ok a ∧ f a = .ok b := by
  cases x <;> simp [Except.bind]

/-- `Except`'s bind fails with the first failure of its parts. -/
theorem bind_eq_error {ε α β : Type} (x : Except ε α) (f : α → Except ε β) (e : ε) :
    x.bind f = .error e ↔ x = .error e ∨ ∃ a, x = .ok a ∧ f a = .error e := by
  cases x <;> simp [Except.bind]

theorem operandWord_eq_ok (s : State) (k : Nat) (p : Word) :
    operandWord s k = .ok p ↔ ValidAddress (operandAddress s k) ∧ p = operandAt s k := by
  rw [operandWord, memRead_eq_ok, and_assoc]

theorem operandWord_eq_error (s : State) (k : Nat) (e : Fault) :
    operandWord s k = .error e ↔ e = .invalidAddress ∧ ¬ ValidAddress (operandAddress s k) :=
  memRead_eq_error s.mem _ e

theorem effective_pointer (s : State) (k : Nat) :
    effective s .pointer k = (operandAt s k).toInt := Int.zero_add _

theorem effective_relative (s : State) (k : Nat) :
    effective s .relative k = s.rb.toInt + (operandAt s k).toInt := rfl

/-- R32, R33, R34: what the two address forms share. -/
theorem src_of_address (s : State) (k : Nat) (m : Mode) (hm : m ≠ .immediate) :
    src s m (operandAt s k) =
      (validAddr (effective s m k)).bind fun a => .ok (s.mem.read a) := by
  cases m
  · rw [effective_pointer]; rfl
  · exact absurd rfl hm
  · rfl

theorem dst_of_address (s : State) (k : Nat) (m : Mode) (hm : m ≠ .immediate) :
    dst s m (operandAt s k) = validAddr (effective s m k) := by
  cases m
  · rw [effective_pointer]; rfl
  · exact absurd rfl hm
  · rfl

/-- R33, for the operand word of position `k`. -/
theorem src_eq_ok (s : State) (k : Nat) (m : Mode) (v : Word)
    (hk : ValidAddress (operandAddress s k)) :
    src s m (operandAt s k) = .ok v ↔ SourceValue s k m v := by
  by_cases hm : m = .immediate
  · subst hm
    constructor
    · intro h
      cases h
      exact ⟨hk, fun _ => rfl, fun h => absurd rfl h⟩
    · rintro ⟨-, h, -⟩
      rw [h rfl]
      rfl
  · rw [src_of_address s k m hm, bind_eq_ok]
    constructor
    · rintro ⟨a, ha, h⟩
      obtain ⟨h1, h2, rfl⟩ := (validAddr_eq_ok _ _).1 ha
      cases h
      exact ⟨hk, fun h => absurd h hm, fun _ => ⟨⟨h1, h2⟩, rfl⟩⟩
    · rintro ⟨-, -, h⟩
      obtain ⟨⟨h1, h2⟩, rfl⟩ := h hm
      exact ⟨_, (validAddr_eq_ok _ _).2 ⟨h1, h2, rfl⟩, rfl⟩

theorem src_eq_error (s : State) (k : Nat) (m : Mode) (e : Fault)
    (hk : ValidAddress (operandAddress s k)) :
    src s m (operandAt s k) = .error e ↔ e = .invalidAddress ∧ BadAddress s k m := by
  by_cases hm : m = .immediate
  · subst hm
    exact ⟨fun h => (by cases h), fun h => absurd rfl h.2.2.1⟩
  · rw [src_of_address s k m hm, bind_eq_error, validAddr_eq_error]
    constructor
    · rintro (⟨rfl, h⟩ | ⟨_, _, h⟩)
      · exact ⟨rfl, hk, hm, h⟩
      · cases h
    · rintro ⟨rfl, -, -, h⟩
      exact .inl ⟨rfl, h⟩

/-- R34, for the operand word of position `k`. -/
theorem dst_eq_ok (s : State) (k : Nat) (m : Mode) (d : Nat)
    (hk : ValidAddress (operandAddress s k)) :
    dst s m (operandAt s k) = .ok d ↔ DestAddress s k m d := by
  by_cases hm : m = .immediate
  · subst hm
    exact ⟨fun h => (by cases h), fun h => absurd rfl h.2.1⟩
  · rw [dst_of_address s k m hm, validAddr_eq_ok]
    exact ⟨fun ⟨h1, h2, h3⟩ => ⟨hk, hm, ⟨h1, h2⟩, h3⟩, fun ⟨_, _, h, h3⟩ => ⟨h.1, h.2, h3⟩⟩

theorem dst_eq_error (s : State) (k : Nat) (m : Mode) (e : Fault)
    (hk : ValidAddress (operandAddress s k)) :
    dst s m (operandAt s k) = .error e ↔
      (e = .destinationImmediate ∧ m = .immediate) ∨ (e = .invalidAddress ∧ BadAddress s k m) := by
  by_cases hm : m = .immediate
  · subst hm
    constructor
    · intro h
      cases h
      exact .inl ⟨rfl, rfl⟩
    · rintro (⟨rfl, -⟩ | ⟨-, h⟩)
      · rfl
      · exact absurd rfl h.2.1
  · rw [dst_of_address s k m hm, validAddr_eq_error]
    constructor
    · rintro ⟨rfl, h⟩
      exact .inr ⟨rfl, hk, hm, h⟩
    · rintro (⟨-, h⟩ | ⟨rfl, h⟩)
      · exact absurd h hm
      · exact ⟨rfl, h.2.2⟩

/-- A source that has a value has no bad address. -/
theorem SourceValue.not_bad {s : State} {k : Nat} {m : Mode} {v : Word} (h : SourceValue s k m v) :
    ¬ BadAddress s k m := fun hb => hb.2.2 (h.2.2 hb.2.1).1

/-! ### The four formats -/

theorem resolveS_eq_ok (s : State) (m1 : Mode) (v : Word) :
    resolveS s m1 = .ok v ↔ SourceValue s 1 m1 v := by
  simp only [resolveS, Bind.bind, bind_eq_ok, operandWord_eq_ok]
  constructor
  · rintro ⟨p, ⟨h, rfl⟩, hs⟩
    exact (src_eq_ok s 1 m1 v h).1 hs
  · intro h
    exact ⟨_, ⟨h.1, rfl⟩, (src_eq_ok s 1 m1 v h.1).2 h⟩

theorem resolveS_eq_error (s : State) (m1 : Mode) (e : Fault) :
    resolveS s m1 = .error e ↔ e = .invalidAddress ∧
      (¬ ValidAddress (operandAddress s 1) ∨ BadAddress s 1 m1) := by
  simp only [resolveS, Bind.bind, bind_eq_error, operandWord_eq_ok, operandWord_eq_error]
  constructor
  · rintro (⟨rfl, h⟩ | ⟨p, ⟨h, rfl⟩, hs⟩)
    · exact ⟨rfl, .inl h⟩
    · obtain ⟨rfl, hb⟩ := (src_eq_error s 1 m1 e h).1 hs
      exact ⟨rfl, .inr hb⟩
  · rintro ⟨rfl, h | h⟩
    · exact .inl ⟨rfl, h⟩
    · exact .inr ⟨_, ⟨h.1, rfl⟩, (src_eq_error s 1 m1 _ h.1).2 ⟨rfl, h⟩⟩

theorem resolveD_eq_ok (s : State) (m1 : Mode) (d : Nat) :
    resolveD s m1 = .ok d ↔ DestAddress s 1 m1 d := by
  simp only [resolveD, Bind.bind, bind_eq_ok, operandWord_eq_ok]
  constructor
  · rintro ⟨p, ⟨h, rfl⟩, hs⟩
    exact (dst_eq_ok s 1 m1 d h).1 hs
  · intro h
    exact ⟨_, ⟨h.1, rfl⟩, (dst_eq_ok s 1 m1 d h.1).2 h⟩

theorem resolveD_eq_error (s : State) (m1 : Mode) (e : Fault) :
    resolveD s m1 = .error e ↔
      (e = .invalidAddress ∧ (¬ ValidAddress (operandAddress s 1) ∨ BadAddress s 1 m1)) ∨
        (e = .destinationImmediate ∧ ValidAddress (operandAddress s 1) ∧ m1 = .immediate) := by
  simp only [resolveD, Bind.bind, bind_eq_error, operandWord_eq_ok, operandWord_eq_error]
  constructor
  · rintro (⟨rfl, h⟩ | ⟨p, ⟨h, rfl⟩, hs⟩)
    · exact .inl ⟨rfl, .inl h⟩
    · rcases (dst_eq_error s 1 m1 e h).1 hs with ⟨rfl, hm⟩ | ⟨rfl, hb⟩
      · exact .inr ⟨rfl, h, hm⟩
      · exact .inl ⟨rfl, .inr hb⟩
  · rintro (⟨rfl, h | h⟩ | ⟨rfl, h, hm⟩)
    · exact .inl ⟨rfl, h⟩
    · exact .inr ⟨_, ⟨h.1, rfl⟩, (dst_eq_error s 1 m1 _ h.1).2 (.inr ⟨rfl, h⟩)⟩
    · exact .inr ⟨_, ⟨h, rfl⟩, (dst_eq_error s 1 m1 _ h).2 (.inl ⟨rfl, hm⟩)⟩

theorem resolveSS_eq_ok (s : State) (m1 m2 : Mode) (a b : Word) :
    resolveSS s m1 m2 = .ok (a, b) ↔ SourceValue s 1 m1 a ∧ SourceValue s 2 m2 b := by
  simp only [resolveSS, Bind.bind, bind_eq_ok, operandWord_eq_ok, pure, Except.pure, Except.ok.injEq,
    Prod.mk.injEq]
  constructor
  · rintro ⟨_, ⟨h1, rfl⟩, _, ⟨h2, rfl⟩, x, hx, y, hy, rfl, rfl⟩
    exact ⟨(src_eq_ok _ _ _ _ h1).1 hx, (src_eq_ok _ _ _ _ h2).1 hy⟩
  · rintro ⟨h1, h2⟩
    exact ⟨_, ⟨h1.1, rfl⟩, _, ⟨h2.1, rfl⟩, a, (src_eq_ok _ _ _ _ h1.1).2 h1, b,
      (src_eq_ok _ _ _ _ h2.1).2 h2, rfl, rfl⟩

/-- With both operand words there, the sources fail in operand order. -/
theorem resolveSS_eq_error (s : State) (m1 m2 : Mode) (e : Fault) :
    resolveSS s m1 m2 = .error e ↔ e = .invalidAddress ∧
      (¬ ValidAddress (operandAddress s 1) ∨ ¬ ValidAddress (operandAddress s 2) ∨
        BadAddress s 1 m1 ∨ BadAddress s 2 m2) := by
  by_cases h1 : ValidAddress (operandAddress s 1)
  · by_cases h2 : ValidAddress (operandAddress s 2)
    · have e1 := (operandWord_eq_ok s 1 _).2 ⟨h1, rfl⟩
      have e2 := (operandWord_eq_ok s 2 _).2 ⟨h2, rfl⟩
      simp only [resolveSS, Bind.bind, e1, e2, Except.bind]
      cases ha : src s m1 (operandAt s 1) with
      | error k =>
        obtain ⟨rfl, hx⟩ := (src_eq_error _ _ _ _ h1).1 ha
        simp only [Except.error.injEq]
        exact ⟨fun h => ⟨h.symm, .inr (.inr (.inl hx))⟩, fun h => h.1.symm⟩
      | ok a =>
        have na := ((src_eq_ok _ _ _ _ h1).1 ha).not_bad
        cases hb : src s m2 (operandAt s 2) with
        | error k =>
          obtain ⟨rfl, hx⟩ := (src_eq_error _ _ _ _ h2).1 hb
          simp only [Except.error.injEq]
          exact ⟨fun h => ⟨h.symm, .inr (.inr (.inr hx))⟩, fun h => h.1.symm⟩
        | ok b =>
          have nb := ((src_eq_ok _ _ _ _ h2).1 hb).not_bad
          constructor
          · intro h
            cases h
          · rintro ⟨-, h | h | h | h⟩
            exacts [absurd h1 h, absurd h2 h, absurd h na, absurd h nb]
    · have e1 := (operandWord_eq_ok s 1 _).2 ⟨h1, rfl⟩
      have e2 := (operandWord_eq_error s 2 _).2 ⟨rfl, h2⟩
      simp only [resolveSS, Bind.bind, e1, e2, Except.bind, Except.error.injEq]
      exact ⟨fun h => ⟨h.symm, .inr (.inl h2)⟩, fun h => h.1.symm⟩
  · have e1 := (operandWord_eq_error s 1 _).2 ⟨rfl, h1⟩
    simp only [resolveSS, Bind.bind, e1, Except.bind, Except.error.injEq]
    exact ⟨fun h => ⟨h.symm, .inl h1⟩, fun h => h.1.symm⟩

theorem resolveSSD_eq_ok (s : State) (m1 m2 m3 : Mode) (a b : Word) (d : Nat) :
    resolveSSD s m1 m2 m3 = .ok (a, b, d) ↔
      SourceValue s 1 m1 a ∧ SourceValue s 2 m2 b ∧ DestAddress s 3 m3 d := by
  simp only [resolveSSD, Bind.bind, bind_eq_ok, operandWord_eq_ok, pure, Except.pure,
    Except.ok.injEq, Prod.mk.injEq]
  constructor
  · rintro ⟨_, ⟨h1, rfl⟩, _, ⟨h2, rfl⟩, _, ⟨h3, rfl⟩, x, hx, y, hy, z, hz, rfl, rfl, rfl⟩
    exact ⟨(src_eq_ok _ _ _ _ h1).1 hx, (src_eq_ok _ _ _ _ h2).1 hy, (dst_eq_ok _ _ _ _ h3).1 hz⟩
  · rintro ⟨h1, h2, h3⟩
    exact ⟨_, ⟨h1.1, rfl⟩, _, ⟨h2.1, rfl⟩, _, ⟨h3.1, rfl⟩, a, (src_eq_ok _ _ _ _ h1.1).2 h1, b,
      (src_eq_ok _ _ _ _ h2.1).2 h2, d, (dst_eq_ok _ _ _ _ h3.1).2 h3, rfl, rfl, rfl⟩

/-- With operand word 3 there, format SSD is format SS and then the destination. -/
theorem resolveSSD_of_word3 (s : State) (m1 m2 m3 : Mode) (h3 : ValidAddress (operandAddress s 3)) :
    resolveSSD s m1 m2 m3 = (resolveSS s m1 m2).bind fun ab =>
      (dst s m3 (operandAt s 3)).bind fun d => .ok (ab.1, ab.2, d) := by
  have e3 := (operandWord_eq_ok s 3 _).2 ⟨h3, rfl⟩
  simp only [resolveSSD, resolveSS, Bind.bind, e3]
  cases operandWord s 1 with
  | error k => rfl
  | ok p1 =>
    cases operandWord s 2 with
    | error k => rfl
    | ok p2 =>
      simp only [Except.bind]
      cases src s m1 p1 with
      | error k => rfl
      | ok a => cases src s m2 p2 <;> rfl

/-- Without operand word 3 every format SSD instruction is InvalidAddress. -/
theorem resolveSSD_no_word3 (s : State) (m1 m2 m3 : Mode)
    (h3 : ¬ ValidAddress (operandAddress s 3)) :
    resolveSSD s m1 m2 m3 = .error .invalidAddress := by
  have e3 := (operandWord_eq_error s 3 _).2 ⟨rfl, h3⟩
  simp only [resolveSSD, Bind.bind, e3]
  cases h1 : operandWord s 1 with
  | error k =>
    obtain ⟨rfl, -⟩ := (operandWord_eq_error _ _ _).1 h1
    rfl
  | ok p1 =>
    cases h2 : operandWord s 2 with
    | error k =>
      obtain ⟨rfl, -⟩ := (operandWord_eq_error _ _ _).1 h2
      rfl
    | ok p2 => rfl

/-- R104, items 5 and 6, for format SSD: the operand words, the sources, then the destination. -/
theorem resolveSSD_eq_error (s : State) (m1 m2 m3 : Mode) (e : Fault)
    (h3 : ValidAddress (operandAddress s 3)) :
    resolveSSD s m1 m2 m3 = .error e ↔
      resolveSS s m1 m2 = .error e ∨
        (∃ a b, resolveSS s m1 m2 = .ok (a, b)) ∧ dst s m3 (operandAt s 3) = .error e := by
  rw [resolveSSD_of_word3 s m1 m2 m3 h3, bind_eq_error]
  constructor
  · rintro (h | ⟨⟨a, b⟩, hab, hd⟩)
    · exact .inl h
    · rcases (bind_eq_error _ _ _).1 hd with hd | ⟨_, _, hd⟩
      · exact .inr ⟨⟨a, b, hab⟩, hd⟩
      · cases hd
  · rintro (h | ⟨⟨a, b, hab⟩, hd⟩)
    · exact .inl h
    · exact .inr ⟨_, hab, (bind_eq_error _ _ _).2 (.inl hd)⟩

/-! ### The address stored to -/

theorem storeAddrSSD_of_ok (s : State) (m1 m2 m3 : Mode) (a b : Word) (d : Nat)
    (h : resolveSSD s m1 m2 m3 = .ok (a, b, d)) : storeAddrSSD s m1 m2 m3 = some d := by
  simp only [storeAddrSSD, h]

theorem storeAddrD_of_ok (s : State) (m1 : Mode) (v : Word) (rest : List Word) (d : Nat)
    (hq : s.inQ = v :: rest) (h : resolveD s m1 = .ok d) : storeAddrD s m1 = some d := by
  simp only [storeAddrD, hq, h]

/-! ### What the operand functions depend on -/

theorem resolveD_congr (s t : State) (m1 : Mode) (hm : t.mem = s.mem) (hp : t.pc = s.pc)
    (hr : t.rb = s.rb) : resolveD t m1 = resolveD s m1 := by
  simp only [resolveD, operandWord, dst, relativeAddr, hm, hp, hr]

theorem resolveS_congr (s t : State) (m1 : Mode) (hm : t.mem = s.mem) (hp : t.pc = s.pc)
    (hr : t.rb = s.rb) : resolveS t m1 = resolveS s m1 := by
  simp only [resolveS, operandWord, src, relativeAddr, hm, hp, hr]

theorem resolveSS_congr (s t : State) (m1 m2 : Mode) (hm : t.mem = s.mem) (hp : t.pc = s.pc)
    (hr : t.rb = s.rb) : resolveSS t m1 m2 = resolveSS s m1 m2 := by
  simp only [resolveSS, operandWord, src, relativeAddr, hm, hp, hr]

theorem resolveSSD_congr (s t : State) (m1 m2 m3 : Mode) (hm : t.mem = s.mem) (hp : t.pc = s.pc)
    (hr : t.rb = s.rb) : resolveSSD t m1 m2 m3 = resolveSSD s m1 m2 m3 := by
  simp only [resolveSSD, operandWord, src, dst, relativeAddr, hm, hp, hr]

end Sys2Proof.Machine
end

