-- ==== Sys2Proof/Laws/Exec.lean ====
section
/-! SUPPORT. Everything each shared shape of a meaning can answer: a next state, and one of the cases
named. Provers cite these and need not unfold a meaning. -/

namespace Sys2Proof.Machine

theorem settle_next (s : State) (r : Except Fault State) : ∃ t, settle s r = .next t := by
  cases r <;> exact ⟨_, rfl⟩

theorem storeBinary_of_ok (f : Word → Word → Word) (m1 m2 m3 : Mode) (s : State) (a b : Word) (d : Nat)
    (h : resolveSSD s m1 m2 m3 = .ok (a, b, d)) :
    storeBinary f m1 m2 m3 s = .next ((s.setMem (s.mem.write d (f a b))).advance 4) := by
  simp only [storeBinary, Bind.bind, h, Except.bind]
  rfl

theorem storeBinary_of_error (f : Word → Word → Word) (m1 m2 m3 : Mode) (s : State) (k : Fault)
    (h : resolveSSD s m1 m2 m3 = .error k) : storeBinary f m1 m2 m3 s = .next (raise k s) := by
  simp only [storeBinary, Bind.bind, h, Except.bind]
  rfl

/-- R60: everything the four-word shape can do. -/
theorem storeBinary_cases (f : Word → Word → Word) (m1 m2 m3 : Mode) (s t : State)
    (h : storeBinary f m1 m2 m3 s = .next t) :
    (∃ a b d, resolveSSD s m1 m2 m3 = .ok (a, b, d) ∧
        t = (s.setMem (s.mem.write d (f a b))).advance 4) ∨
      ∃ k, resolveSSD s m1 m2 m3 = .error k ∧ t = raise k s := by
  cases hr : resolveSSD s m1 m2 m3 with
  | ok abd =>
    obtain ⟨a, b, d⟩ := abd
    rw [storeBinary_of_ok f m1 m2 m3 s a b d hr] at h
    cases h
    exact .inl ⟨a, b, d, rfl, rfl⟩
  | error k =>
    rw [storeBinary_of_error f m1 m2 m3 s k hr] at h
    cases h
    exact .inr ⟨k, rfl, rfl⟩

/-- R61: IN on an empty queue. -/
theorem execInp_nil (m1 : Mode) (s : State) (h : s.inQ = []) :
    execInp m1 s = .next (returnRun .awaitingInput s) := by
  simp only [execInp, h]

/-- R61: IN with a word queued. -/
theorem execInp_of_ok (m1 : Mode) (s : State) (v : Word) (rest : List Word) (d : Nat)
    (hq : s.inQ = v :: rest) (h : resolveD s m1 = .ok d) :
    execInp m1 s = .next (((s.setInQ rest).setMem (s.mem.write d v)).advance 2) := by
  simp only [execInp, hq, Bind.bind, h, Except.bind]
  rfl

theorem execInp_of_error (m1 : Mode) (s : State) (v : Word) (rest : List Word) (k : Fault)
    (hq : s.inQ = v :: rest) (h : resolveD s m1 = .error k) :
    execInp m1 s = .next (raise k s) := by
  simp only [execInp, hq, Bind.bind, h, Except.bind]
  rfl

/-- R61: everything IN can do. -/
theorem execInp_cases (m1 : Mode) (s t : State) (h : execInp m1 s = .next t) :
    (s.inQ = [] ∧ t = returnRun .awaitingInput s) ∨
      (∃ v rest d, s.inQ = v :: rest ∧ resolveD s m1 = .ok d ∧
        t = ((s.setInQ rest).setMem (s.mem.write d v)).advance 2) ∨
      ∃ v rest k, s.inQ = v :: rest ∧ resolveD s m1 = .error k ∧ t = raise k s := by
  cases hq : s.inQ with
  | nil =>
    rw [execInp_nil m1 s hq] at h
    cases h
    exact .inl ⟨rfl, rfl⟩
  | cons v rest =>
    cases hr : resolveD s m1 with
    | ok d =>
      rw [execInp_of_ok m1 s v rest d hq hr] at h
      cases h
      exact .inr (.inl ⟨v, rest, d, rfl, rfl, rfl⟩)
    | error k =>
      rw [execInp_of_error m1 s v rest k hq hr] at h
      cases h
      exact .inr (.inr ⟨v, rest, k, rfl, rfl, rfl⟩)

theorem execOut_of_ok (m1 : Mode) (s : State) (v : Word) (h : resolveS s m1 = .ok v) :
    execOut m1 s = .next ((s.setOutQ (s.outQ ++ [v])).advance 2) := by
  simp only [execOut, Bind.bind, h, Except.bind]
  rfl

theorem execOut_of_error (m1 : Mode) (s : State) (k : Fault) (h : resolveS s m1 = .error k) :
    execOut m1 s = .next (raise k s) := by
  simp only [execOut, Bind.bind, h, Except.bind]
  rfl

/-- R62: everything OUT can do. -/
theorem execOut_cases (m1 : Mode) (s t : State) (h : execOut m1 s = .next t) :
    (∃ v, resolveS s m1 = .ok v ∧ t = (s.setOutQ (s.outQ ++ [v])).advance 2) ∨
      ∃ k, resolveS s m1 = .error k ∧ t = raise k s := by
  cases hr : resolveS s m1 with
  | ok v =>
    rw [execOut_of_ok m1 s v hr] at h
    cases h
    exact .inl ⟨v, rfl, rfl⟩
  | error k =>
    rw [execOut_of_error m1 s k hr] at h
    cases h
    exact .inr ⟨k, rfl, rfl⟩

theorem execArb_of_ok (m1 : Mode) (s : State) (v : Word) (h : resolveS s m1 = .ok v) :
    execArb m1 s = .next ((s.setRb (wrap64 (s.rb.toInt + v.toInt))).advance 2) := by
  simp only [execArb, Bind.bind, h, Except.bind]
  rfl

theorem execArb_of_error (m1 : Mode) (s : State) (k : Fault) (h : resolveS s m1 = .error k) :
    execArb m1 s = .next (raise k s) := by
  simp only [execArb, Bind.bind, h, Except.bind]
  rfl

/-- R69: everything ARB can do. -/
theorem execArb_cases (m1 : Mode) (s t : State) (h : execArb m1 s = .next t) :
    (∃ v, resolveS s m1 = .ok v ∧ t = (s.setRb (wrap64 (s.rb.toInt + v.toInt))).advance 2) ∨
      ∃ k, resolveS s m1 = .error k ∧ t = raise k s := by
  cases hr : resolveS s m1 with
  | ok v =>
    rw [execArb_of_ok m1 s v hr] at h
    cases h
    exact .inl ⟨v, rfl, rfl⟩
  | error k =>
    rw [execArb_of_error m1 s k hr] at h
    cases h
    exact .inr ⟨k, rfl, rfl⟩

theorem jumpWhen_of_ok (taken : Word → Bool) (m1 m2 : Mode) (s : State) (c a : Word)
    (h : resolveSS s m1 m2 = .ok (c, a)) :
    jumpWhen taken m1 m2 s = .next (if taken c then s.setPc a else s.advance 3) := by
  simp only [jumpWhen, Bind.bind, h, Except.bind]
  rfl

theorem jumpWhen_of_error (taken : Word → Bool) (m1 m2 : Mode) (s : State) (k : Fault)
    (h : resolveSS s m1 m2 = .error k) : jumpWhen taken m1 m2 s = .next (raise k s) := by
  simp only [jumpWhen, Bind.bind, h, Except.bind]
  rfl

/-- R64, R65: everything a conditional jump can do. -/
theorem jumpWhen_cases (taken : Word → Bool) (m1 m2 : Mode) (s t : State)
    (h : jumpWhen taken m1 m2 s = .next t) :
    (∃ c a, resolveSS s m1 m2 = .ok (c, a) ∧ t = if taken c then s.setPc a else s.advance 3) ∨
      ∃ k, resolveSS s m1 m2 = .error k ∧ t = raise k s := by
  cases hr : resolveSS s m1 m2 with
  | ok ca =>
    obtain ⟨c, a⟩ := ca
    rw [jumpWhen_of_ok taken m1 m2 s c a hr] at h
    cases h
    exact .inl ⟨c, a, rfl, rfl⟩
  | error k =>
    rw [jumpWhen_of_error taken m1 m2 s k hr] at h
    cases h
    exact .inr ⟨k, rfl, rfl⟩

theorem isTrue_iff (c : Word) : isTrue c = true ↔ c ≠ 0 := by
  unfold isTrue
  rw [decide_eq_true_iff, ne_eq, ne_eq, ← BitVec.toInt_inj]
  rfl

/-- Every meaning answers a next state: completion, a run outcome, or a taken error. -/
theorem exec_next (i : Instr) (s : State) : ∃ t, exec i s = .next t := by
  cases i with
  | add m1 m2 m3 => exact settle_next _ _
  | mul m1 m2 m3 => exact settle_next _ _
  | inp m1 =>
    cases hq : s.inQ with
    | nil => exact ⟨_, execInp_nil m1 s hq⟩
    | cons v rest =>
      simp only [exec, execInp, hq]
      exact settle_next _ _
  | out m1 => exact settle_next _ _
  | jt m1 m2 => exact settle_next _ _
  | jf m1 m2 => exact settle_next _ _
  | lt m1 m2 m3 => exact settle_next _ _
  | eq m1 m2 m3 => exact settle_next _ _
  | arb m1 => exact settle_next _ _
  | hlt => exact ⟨_, rfl⟩

end Sys2Proof.Machine
end

