-- ==== Sys2Proof/Laws/Host.lean ====
section
/-! SUPPORT. What the transactions leave alone, what pushing several words does, field by field, and
when a relay has a result. -/

namespace Sys2Proof.Machine

/-- R83's table: a transaction other than run, clear_output and build leaves the output queue and what
the host has still to ask, and starts nothing. -/
theorem perform_keeps_output (r : Transaction) (s : State)
    (h : r ≠ .run ∧ r ≠ .clearOutput ∧ ∀ image, r ≠ .build image) :
    (perform r s).outQ = s.outQ ∧ (perform r s).requests = s.requests ∧
      (perform r s).call ≠ .running := by
  cases r with
  | build image => exact absurd rfl (h.2.2 image)
  | run => exact absurd rfl h.1
  | clearOutput => exact absurd rfl h.2.1
  | pushInput v => exact ⟨rfl, rfl, nofun⟩
  | drainOutput => exact ⟨rfl, rfl, nofun⟩
  | peek a =>
    show (hostPeek a s).outQ = _ ∧ (hostPeek a s).requests = _ ∧ (hostPeek a s).call ≠ _
    unfold hostPeek
    split <;> exact ⟨rfl, rfl, nofun⟩
  | poke a v =>
    show (hostPoke a v s).outQ = _ ∧ (hostPoke a v s).requests = _ ∧ (hostPoke a v s).call ≠ _
    unfold hostPoke
    split <;> exact ⟨rfl, rfl, nofun⟩

@[simp] theorem pushAll_nil (s : State) : pushAll [] s = s := rfl

@[simp] theorem pushAll_cons (v : Word) (ws : List Word) (s : State) :
    pushAll (v :: ws) s = pushAll ws (hostPushInput v s) := rfl

/-- R87, repeated: everything `pushAll` can do. -/
theorem pushAll_eq (ws : List Word) (s : State) :
    pushAll ws s =
      if ws = [] then s else (s.setInQ (s.inQ ++ ws)).setCall (.returned .done) := by
  induction ws generalizing s with
  | nil => rfl
  | cons v rest ih =>
    rw [pushAll_cons, ih]
    cases rest <;>
      simp [hostPushInput, reply, State.setInQ, State.setCall]

@[simp] theorem pushAll_inQ (ws : List Word) (s : State) : (pushAll ws s).inQ = s.inQ ++ ws := by
  rw [pushAll_eq]
  split
  · simp [*]
  · rfl

@[simp] theorem pushAll_mem (ws : List Word) (s : State) : (pushAll ws s).mem = s.mem := by
  rw [pushAll_eq]; split <;> rfl

@[simp] theorem pushAll_pc (ws : List Word) (s : State) : (pushAll ws s).pc = s.pc := by
  rw [pushAll_eq]; split <;> rfl

@[simp] theorem pushAll_rb (ws : List Word) (s : State) : (pushAll ws s).rb = s.rb := by
  rw [pushAll_eq]; split <;> rfl

@[simp] theorem pushAll_outQ (ws : List Word) (s : State) : (pushAll ws s).outQ = s.outQ := by
  rw [pushAll_eq]; split <;> rfl

@[simp] theorem pushAll_requests (ws : List Word) (s : State) :
    (pushAll ws s).requests = s.requests := by
  rw [pushAll_eq]; split <;> rfl

/-- Pushing starts nothing (R87). -/
theorem pushAll_call_ne_running (ws : List Word) (s : State) (h : s.call ≠ .running) :
    (pushAll ws s).call ≠ .running := by
  rw [pushAll_eq]
  split
  · exact h
  · exact nofun

/-- R94: a relay between two instances the host may act on. -/
theorem relay_of_host (a b : State) (ha : a.call ≠ .running) (hb : b.call ≠ .running) :
    relay a b = some (hostClearOutput a, pushAll a.outQ b) := by
  unfold relay
  cases hca : a.call with
  | running => exact absurd hca ha
  | returned r =>
    cases hcb : b.call with
    | running => exact absurd hcb hb
    | returned r' => rfl

/-- R118, U9 (assumption log 22): no relay while a run is in progress on either. -/
theorem relay_of_running (a b : State) (h : a.call = .running ∨ b.call = .running) :
    relay a b = none := by
  unfold relay
  cases hca : a.call with
  | running => rfl
  | returned r =>
    cases hcb : b.call with
    | running => rfl
    | returned r' => simp [hca, hcb] at h

end Sys2Proof.Machine
end

