-- ==== Sys2Proof/Laws/PerInstr.lean ====
section
/-! SUPPORT. One family of facts about every instruction as syntax: its encoding has no more digits
than its opcode and its modes need, and its two lowest digits are its code (R42, R43, R56). -/

namespace Sys2Proof

/-- The mode digits of `k` operands are below 10^k. -/
theorem modeDigits_lt (ms : List Mode) : modeDigits ms < 10 ^ ms.length := by
  induction ms with
  | nil => decide
  | cons m rest ih =>
    have := m.digit_le
    simp only [modeDigits, List.length_cons, pow_succ]
    omega

end Sys2Proof

namespace Sys2Proof.Laws.EncodeDigits

/-- The encoding's two lowest digits are the code, and it has at most `n + 2` digits. -/
def Statement (i : Instr) : Prop :=
  i.encodeNat % 100 = i.code ∧ i.encodeNat < 10 ^ (i.operandCount + 2)

/-- What the ten cases share. -/
theorem of_code (i : Instr) (h : i.code < 100) : Statement i := by
  have hm := modeDigits_lt i.modes
  unfold Statement Instr.encodeNat Instr.operandCount
  rw [pow_add]
  refine ⟨by omega, by omega⟩

theorem add (m1 m2 m3 : Mode) : Statement (.add m1 m2 m3) := of_code _ (by simp [Instr.code])
theorem mul (m1 m2 m3 : Mode) : Statement (.mul m1 m2 m3) := of_code _ (by simp [Instr.code])
theorem inp (m1 : Mode) : Statement (.inp m1) := of_code _ (by simp [Instr.code])
theorem out (m1 : Mode) : Statement (.out m1) := of_code _ (by simp [Instr.code])
theorem jt (m1 m2 : Mode) : Statement (.jt m1 m2) := of_code _ (by simp [Instr.code])
theorem jf (m1 m2 : Mode) : Statement (.jf m1 m2) := of_code _ (by simp [Instr.code])
theorem lt (m1 m2 m3 : Mode) : Statement (.lt m1 m2 m3) := of_code _ (by simp [Instr.code])
theorem eq (m1 m2 m3 : Mode) : Statement (.eq m1 m2 m3) := of_code _ (by simp [Instr.code])
theorem arb (m1 : Mode) : Statement (.arb m1) := of_code _ (by simp [Instr.code])
theorem hlt : Statement .hlt := of_code _ (by simp [Instr.code])

end Sys2Proof.Laws.EncodeDigits
end

