-- ==== Sys2Proof/Laws/Step.lean ====
section
/-! SUPPORT. What the fetch answers, everything a step of a run can do, and the host's move. -/

namespace Sys2Proof.Machine

theorem toInt_le_addrMax (w : Word) : w.toInt ≤ 9223372036854775807 := by
  have := BitVec.toInt_lt (x := w)
  norm_num at this
  omega

theorem toNat_of_nonneg (w : Word) (h : 0 ≤ w.toInt) : w.toInt.toNat = w.toNat := by
  have := BitVec.toInt_eq_toNat_cond w
  split at this <;> omega

/-- R73 phase 1 at a valid `PC`. -/
theorem fetchWord_of_nonneg (s : State) (h : 0 ≤ s.pc.toInt) :
    fetchWord s = .ok (s.mem.read s.pc.toNat) := by
  rw [fetchWord, memRead_eq_ok, toNat_of_nonneg _ h]
  exact ⟨h, toInt_le_addrMax _, rfl⟩

/-- R100 (a). -/
theorem fetchWord_of_neg (s : State) (h : s.pc.toInt < 0) : fetchWord s = .error .invalidAddress := by
  rw [fetchWord, memRead_eq_error]
  exact ⟨rfl, by omega⟩

/-- R73 phases 1 and 2: what it means that an instruction is fetched. -/
theorem fetchDecode_eq_ok (s : State) (i : Instr) :
    fetchDecode s = .ok i ↔ 0 ≤ s.pc.toInt ∧ decode (s.mem.read s.pc.toNat) = .ok i := by
  by_cases h : 0 ≤ s.pc.toInt
  · simp only [fetchDecode, fetchWord_of_nonneg s h]
    cases decode (s.mem.read s.pc.toNat) <;> simp [h]
  · simp only [fetchDecode, fetchWord_of_neg s (not_le.1 h)]
    simp [h]

theorem fetchDecode_of_decode_error (s : State) (e : DecodeError) (h : 0 ≤ s.pc.toInt)
    (hd : decode (s.mem.read s.pc.toNat) = .error e) : fetchDecode s = .error (faultOfDecode e) := by
  simp only [fetchDecode, fetchWord_of_nonneg s h, hd]

/-- R4: whose move it is. -/
theorem step_of_running (s : State) (h : s.call = .running) : step s = engineStep s := by
  simp only [step, h]

theorem step_of_host (s : State) (h : s.call ≠ .running) : step s = .next (hostMove s) := by
  cases hc : s.call with
  | running => exact absurd hc h
  | returned r => simp only [step, hc]

theorem engineStep_of_error (s : State) (k : Fault) (h : fetchDecode s = .error k) :
    engineStep s = .next (raise k s) := by simp only [engineStep, h]

theorem engineStep_of_ok (s : State) (i : Instr) (h : fetchDecode s = .ok i) :
    engineStep s = exec i s := by simp only [engineStep, h]

/-- R73: a step of a run takes an error of the fetch or of the decoder, or executes an instruction. -/
theorem engineStep_cases (s t : State) (h : engineStep s = .next t) :
    (∃ k, fetchDecode s = .error k ∧ t = raise k s) ∨
      ∃ i, fetchDecode s = .ok i ∧ exec i s = .next t := by
  cases hf : fetchDecode s with
  | error k =>
    rw [engineStep_of_error s k hf] at h
    cases h
    exact .inl ⟨k, rfl, rfl⟩
  | ok i =>
    rw [engineStep_of_ok s i hf] at h
    exact .inr ⟨i, rfl, h⟩

/-- R72, R73: everything an instruction can do, in one list: take an error, halt, suspend, or complete
with its one effect. Every rule about the whole machine follows from it. -/
theorem exec_cases (i : Instr) (s t : State) (h : exec i s = .next t) :
    (∃ k, t = raise k s) ∨
    (i = .hlt ∧ t = returnRun .halted s) ∨
    (∃ m1, i = .inp m1 ∧ s.inQ = [] ∧ t = returnRun .awaitingInput s) ∨
    (∃ m1 m2 m3 a b d, ∃ f : Word → Word → Word,
      (i = .add m1 m2 m3 ∨ i = .mul m1 m2 m3 ∨ i = .lt m1 m2 m3 ∨ i = .eq m1 m2 m3) ∧
      resolveSSD s m1 m2 m3 = .ok (a, b, d) ∧ t = (s.setMem (s.mem.write d (f a b))).advance 4) ∨
    (∃ m1 v rest d, i = .inp m1 ∧ s.inQ = v :: rest ∧ resolveD s m1 = .ok d ∧
      t = ((s.setInQ rest).setMem (s.mem.write d v)).advance 2) ∨
    (∃ m1 v, i = .out m1 ∧ resolveS s m1 = .ok v ∧ t = (s.setOutQ (s.outQ ++ [v])).advance 2) ∨
    (∃ m1 v, i = .arb m1 ∧ resolveS s m1 = .ok v ∧
      t = (s.setRb (wrap64 (s.rb.toInt + v.toInt))).advance 2) ∨
    (∃ m1 m2 c a, (i = .jt m1 m2 ∨ i = .jf m1 m2) ∧ resolveSS s m1 m2 = .ok (c, a) ∧
      (t = s.setPc a ∨ t = s.advance 3)) := by
  cases i with
  | add m1 m2 m3 =>
    rcases storeBinary_cases addWord m1 m2 m3 s t h with ⟨a, b, d, hr, ht⟩ | ⟨k, _, ht⟩
    · exact .inr (.inr (.inr (.inl ⟨m1, m2, m3, a, b, d, addWord, by simp, hr, ht⟩)))
    · exact .inl ⟨k, ht⟩
  | mul m1 m2 m3 =>
    rcases storeBinary_cases mulWord m1 m2 m3 s t h with ⟨a, b, d, hr, ht⟩ | ⟨k, _, ht⟩
    · exact .inr (.inr (.inr (.inl ⟨m1, m2, m3, a, b, d, mulWord, by simp, hr, ht⟩)))
    · exact .inl ⟨k, ht⟩
  | lt m1 m2 m3 =>
    rcases storeBinary_cases ltWord m1 m2 m3 s t h with ⟨a, b, d, hr, ht⟩ | ⟨k, _, ht⟩
    · exact .inr (.inr (.inr (.inl ⟨m1, m2, m3, a, b, d, ltWord, by simp, hr, ht⟩)))
    · exact .inl ⟨k, ht⟩
  | eq m1 m2 m3 =>
    rcases storeBinary_cases eqWord m1 m2 m3 s t h with ⟨a, b, d, hr, ht⟩ | ⟨k, _, ht⟩
    · exact .inr (.inr (.inr (.inl ⟨m1, m2, m3, a, b, d, eqWord, by simp, hr, ht⟩)))
    · exact .inl ⟨k, ht⟩
  | inp m1 =>
    rcases execInp_cases m1 s t h with ⟨hq, ht⟩ | ⟨v, rest, d, hq, hr, ht⟩ | ⟨_, _, k, _, _, ht⟩
    · exact .inr (.inr (.inl ⟨m1, rfl, hq, ht⟩))
    · exact .inr (.inr (.inr (.inr (.inl ⟨m1, v, rest, d, rfl, hq, hr, ht⟩))))
    · exact .inl ⟨k, ht⟩
  | out m1 =>
    rcases execOut_cases m1 s t h with ⟨v, hr, ht⟩ | ⟨k, _, ht⟩
    · exact .inr (.inr (.inr (.inr (.inr (.inl ⟨m1, v, rfl, hr, ht⟩)))))
    · exact .inl ⟨k, ht⟩
  | arb m1 =>
    rcases execArb_cases m1 s t h with ⟨v, hr, ht⟩ | ⟨k, _, ht⟩
    · exact .inr (.inr (.inr (.inr (.inr (.inr (.inl ⟨m1, v, rfl, hr, ht⟩))))))
    · exact .inl ⟨k, ht⟩
  | jt m1 m2 =>
    rcases jumpWhen_cases isTrue m1 m2 s t h with ⟨c, a, hr, ht⟩ | ⟨k, _, ht⟩
    · refine .inr (.inr (.inr (.inr (.inr (.inr (.inr ⟨m1, m2, c, a, by simp, hr, ?_⟩))))))
      split at ht
      · exact .inl ht
      · exact .inr ht
    · exact .inl ⟨k, ht⟩
  | jf m1 m2 =>
    rcases jumpWhen_cases (fun c => !isTrue c) m1 m2 s t h with ⟨c, a, hr, ht⟩ | ⟨k, _, ht⟩
    · refine .inr (.inr (.inr (.inr (.inr (.inr (.inr ⟨m1, m2, c, a, by simp, hr, ?_⟩))))))
      split at ht
      · exact .inl ht
      · exact .inr ht
    · exact .inl ⟨k, ht⟩
  | hlt =>
    cases h
    exact .inr (.inl ⟨rfl, rfl⟩)

/-- The interface's run, one step at a time. -/
theorem core_run_succ (M : Host.Core) (k : Nat) (s t : M.State) (h : M.step s = .next t) :
    M.run (k + 1) s = M.run k t := by
  show (match M.step s with
    | .next s' => M.run k s'
    | .fault r => .fault r
    | .refused r => .refused r) = _
  rw [h]

end Sys2Proof.Machine
end

