-- ==== Sys2Proof/Tests/Slice0.lean ====
section
/-! SUPPORT. Small tests, each of one step or one decoding, with results taken from the spec's own
vectors (95_test_vectors.md, named in each comment); and for each statement with hypotheses a state
and operands that meet them together, at the edges of their ranges where there are any. -/

namespace Sys2Proof.Tests

open Sys2Proof.Machine

/-- A run in progress on a freshly built image (R21). -/
def running (image : List Word) : State :=
  { State.reset with mem := Memory.ofImage image, call := .running }

/-- A freshly built image and the transactions the host will issue. -/
def asked (image : List Word) (requests : List Transaction) : State :=
  { State.reset with mem := Memory.ofImage image, requests := requests }

/-- A run in progress at the top of the address range, where only one word stands. -/
def atTop (w : Word) : State :=
  (running []).setMem ((Memory.ofImage []).write 9223372036854775807 w)
    |>.setPc 9223372036854775807

/-- The next state, where there is one. -/
def after (o : Host.Outcome State Fault Refusal) : State :=
  match o with
  | .next t => t
  | .fault _ => State.reset
  | .refused _ => State.reset

/-- How the step of a run ended: the outcome returned, if one was. -/
def outcome (s : State) : Option RunOutcome :=
  match (after (step s)).call with
  | .returned (.outcome o) => some o
  | .returned _ => none
  | .running => none

/-! ### Well-formed instructions: each check refuses an ill-formed term -/

theorem test_wellFormed_refuses_immediate_destinations :
    (Instr.add .pointer .pointer .immediate).wellFormed = false ∧
    (Instr.mul .pointer .pointer .immediate).wellFormed = false ∧
    (Instr.inp .immediate).wellFormed = false ∧
    (Instr.lt .pointer .pointer .immediate).wellFormed = false ∧
    (Instr.eq .pointer .pointer .immediate).wellFormed = false := by decide

theorem test_wellFormed_accepts_immediate_sources :
    (Instr.add .immediate .immediate .relative).wellFormed = true ∧
    (Instr.out .immediate).wellFormed = true ∧ (Instr.jt .immediate .immediate).wellFormed = true ∧
    (Instr.jf .immediate .immediate).wellFormed = true ∧
    (Instr.arb .immediate).wellFormed = true ∧ Instr.hlt.wellFormed = true := by decide

/-! ### Decoding: every constructor, from words written digit by digit (30_encoding.md R45, R46; 95
section 2.1) -/

theorem test_decode_four_words :
    decode 1 = .ok (.add .pointer .pointer .pointer) ∧
    decode 10001 = .ok (.add .pointer .pointer .immediate) ∧
    decode 1101 = .ok (.add .immediate .immediate .pointer) ∧
    decode 1002 = .ok (.mul .pointer .immediate .pointer) ∧
    decode 20002 = .ok (.mul .pointer .pointer .relative) ∧
    decode 22202 = .ok (.mul .relative .relative .relative) ∧
    decode 21107 = .ok (.lt .immediate .immediate .relative) ∧
    decode 7 = .ok (.lt .pointer .pointer .pointer) ∧
    decode 1008 = .ok (.eq .pointer .immediate .pointer) ∧
    decode 8 = .ok (.eq .pointer .pointer .pointer) := by decide

theorem test_decode_in_out :
    decode 3 = .ok (.inp .pointer) ∧ decode 103 = .ok (.inp .immediate) ∧
    decode 203 = .ok (.inp .relative) ∧ decode 4 = .ok (.out .pointer) ∧
    decode 104 = .ok (.out .immediate) ∧ decode 204 = .ok (.out .relative) := by decide

theorem test_decode_control :
    decode 5 = .ok (.jt .pointer .pointer) ∧ decode 1205 = .ok (.jt .relative .immediate) ∧
    decode 6 = .ok (.jf .pointer .pointer) ∧ decode 2106 = .ok (.jf .immediate .relative) ∧
    decode 9 = .ok (.arb .pointer) ∧ decode 209 = .ok (.arb .relative) ∧ decode 99 = .ok .hlt := by
  decide

theorem test_decode_unknown_opcodes :
    decode 0 = .error .invalidOpcode ∧ decode 10 = .error .invalidOpcode ∧
    decode 98 = .error .invalidOpcode ∧ decode 100 = .error .invalidOpcode ∧
    decode 350 = .error .invalidOpcode ∧ decode (-1) = .error .invalidOpcode ∧
    decode (-99) = .error .invalidOpcode := by decide

theorem test_decode_bad_modes :
    decode 301 = .error .invalidMode ∧ decode 3001 = .error .invalidMode ∧
    decode 30001 = .error .invalidMode ∧ decode 303 = .error .invalidMode ∧
    decode 904 = .error .invalidMode ∧ decode 9223372036854775807 = .error .invalidMode := by decide

theorem test_decode_surplus_digits :
    decode 1199 = .ok .hlt ∧ decode 100001 = .ok (.add .pointer .pointer .pointer) ∧
    decode 900001 = .ok (.add .pointer .pointer .pointer) ∧ decode 31104 = .ok (.out .immediate) ∧
    decode 1003 = .ok (.inp .pointer) := by decide

/-- R56's examples of the assembler notation. -/
theorem test_encode :
    assemble (.mul .pointer .immediate .pointer) [4, 3, 4] = [1002, 4, 3, 4] ∧
    assemble (.out .relative) [-1] = [204, -1] ∧ assemble (.arb .immediate) [1] = [109, 1] ∧
    assemble .hlt [] = [99] := by decide

theorem test_decodeTableWord :
    decodeTableWord 8 4 = some (.out .pointer) ∧ decodeTableWord 8 99 = some .hlt ∧
    decodeTableWord 16 1002 = some (.mul .pointer .immediate .pointer) ∧
    decodeTableWord 8 0 = none := by decide

theorem test_withFetchWord_runs_the_word :
    (State.reset.withFetchWord 8 99).mem.read 0 = 99 ∧
    outcome (State.reset.withFetchWord 8 99) = some .halted ∧
    (after (step (State.reset.withFetchWord 8 4))).outQ = [4] := by decide

/-! ### Memory (E8) -/

theorem test_growth_reads_zero_between :
    let m := ((Memory.ofImage [99]).write 5 7).write 10 (-3)
    m.len = 11 ∧ m.read 0 = 99 ∧ m.read 5 = 7 ∧ m.read 6 = 0 ∧ m.read 9 = 0 ∧ m.read 10 = -3 ∧
      m.read 1000 = 0 := by decide

theorem test_writing_zero_unlists_but_grows :
    (Memory.ofImage [5]).write 0 0 = { cells := [], len := 1 } ∧
    (Memory.ofImage [5]).write 3 0 = { cells := [(0, 5)], len := 4 } := by decide

/-! ### One step of each instruction -/

/-- A4: Relative destination, growth 4 to 106. -/
theorem test_add_grows_memory :
    let t := after (step { running [21101, 3, 4, 5] with rb := 100 })
    t.mem.read 105 = 7 ∧ t.mem.read 50 = 0 ∧ t.mem.len = 106 ∧ t.pc = 4 := by decide

/-- A5: the sum wraps. -/
theorem test_add_wraps :
    (after (step (running [1101, 9223372036854775807, 1, 5]))).mem.read 5 = -9223372036854775808 := by
  decide

/-- M4: the product wraps. -/
theorem test_mul_wraps :
    (after (step (running [1102, -9223372036854775808, -1, 5]))).mem.read 5 =
      -9223372036854775808 := by decide

/-- M9: all three operands Relative. -/
theorem test_mul_relative :
    (after (step { running [22202, 0, 1, 2, 6, 7] with rb := 4 })).mem.read 6 = 42 := by decide

/-- L3 and L7: the comparison is signed and is no wrapped difference. -/
theorem test_lt_signed :
    (after (step (running [1107, -1, 0, 5]))).mem.read 5 = 1 ∧
    (after (step (running [1107, 9223372036854775807, -9223372036854775808, 5]))).mem.read 5 = 0 := by
  decide

/-- L8: a negative `RB` with a valid sum; the instruction overwrites its own word. -/
theorem test_lt_negative_base :
    let t := after (step { running [21107, 1, 2, 3] with rb := -3 })
    t.mem.read 0 = 1 ∧ t.pc = 4 := by decide

/-- Q5 and Q2. -/
theorem test_eq :
    (after (step (running [108, 0, 9, 9]))).mem.read 9 = 1 ∧
    (after (step (running [1108, 4, -4, 5]))).mem.read 5 = 0 := by decide

/-- I1: the oldest word only. -/
theorem test_in_pops_the_oldest :
    let t := after (step { running [3, 0] with inQ := [7, 8] })
    t.mem.read 0 = 7 ∧ t.inQ = [8] ∧ t.pc = 2 := by decide

/-- I5, I6, I7: suspension wins, and an error consumes nothing. -/
theorem test_in_order_of_checks :
    outcome (running [103, 0]) = some .awaitingInput ∧
    outcome { running [103, 0] with inQ := [1] } = some (.fatal .destinationImmediate) ∧
    (after (step { running [103, 0] with inQ := [1] })).inQ = [1] ∧
    outcome { running [3, -1] with inQ := [1] } = some (.fatal .invalidAddress) := by decide

/-- O1 and O3. -/
theorem test_out :
    (after (step (running [4, 100]))).outQ = [0] ∧ (after (step (running [4, 100]))).mem.len = 2 ∧
    (after (step { running [204, -1, 9] with rb := 3 })).outQ = [9] := by decide

/-- O5: the exact sum `RB + P(1)` is negative. -/
theorem test_out_bad_address :
    outcome { running [204, 0] with rb := -1 } = some (.fatal .invalidAddress) := by decide

/-- J4 and J9: any word but 0 is true, and a negative target is no error of the jump. -/
theorem test_jt :
    (after (step (running [5, 9, 10, 0, 0, 0, 0, 0, 0, -4, 2]))).pc = 2 ∧
    (after (step (running [1105, 1, -7]))).pc = -7 ∧
    (after (step (running [1105, 1, -7]))).call = .running := by decide

/-- J2 and J8: not taken. -/
theorem test_jt_not_taken :
    (after (step (running [1105, 0, 7]))).pc = 3 ∧ (after (step (running [1105, 0, -7]))).pc = 3 := by
  decide

/-- J11 and J12: a condition read beyond the image is 0, and nothing grows. -/
theorem test_jf :
    (after (step (running [1106, 5, 7]))).pc = 3 ∧
    (after (step (running [6, 1000, 2000]))).pc = 0 ∧
    (after (step (running [6, 1000, 2000]))).mem.len = 3 := by decide

/-- B4: a Relative source is read with the old `RB`. -/
theorem test_arb_uses_the_old_base :
    (after (step { running [209, 0, 0, 4] with rb := 3 })).rb = 7 := by decide

/-- B6: the base wraps. -/
theorem test_arb_wraps :
    (after (step { running [109, -9223372036854775808] with rb := -1 })).rb =
      9223372036854775807 := by decide

/-- H1, H3: nothing but the outcome changes. -/
theorem test_hlt :
    after (step (running [99])) = { running [99] with call := .returned (.outcome .halted) } := by
  decide

/-! ### Errors (95 section 2.7) -/

/-- F8, F9, F10: the opcode before the modes, all modes before any operand, sources before the
destination. -/
theorem test_error_priority :
    outcome (running [350]) = some (.fatal .invalidOpcode) ∧
    outcome (running [30001, -1, 0, 0]) = some (.fatal .invalidMode) ∧
    outcome (running [10001, -1, 0, 0]) = some (.fatal .invalidAddress) := by decide

/-- The top of the address range: no operand word for OUT, none needed by HLT; and D6. -/
theorem test_top_of_address_range :
    outcome (atTop 104) = some (.fatal .invalidAddress) ∧ outcome (atTop 99) = some .halted ∧
    outcome { running [2201, 1, 0, 0] with rb := 9223372036854775807 } =
      some (.fatal .invalidAddress) := by decide

/-! ### The host's transactions (95 section 2.8) -/

/-- X1, X2. -/
theorem test_peek :
    (after (step (asked [1, 2, 3] [.peek 2]))).call = .returned (.word 3) ∧
    (after (step (asked [1, 2, 3] [.peek 1000000000000000000]))).call = .returned (.word 0) ∧
    (after (step (asked [1, 2, 3] [.peek (-1)]))).call =
      .returned (.error .invalidAddress) := by decide

/-- X3 and E8. -/
theorem test_poke :
    (after (step (asked [99] [.poke 5 7]))).mem = { cells := [(0, 99), (5, 7)], len := 6 } ∧
    (after (step (asked [1] [.poke (-1) 0]))).mem = Memory.ofImage [1] := by decide

/-- X5, X6, X10. -/
theorem test_output_and_build :
    (after (step { asked [] [.drainOutput] with outQ := [1] })).call = .returned (.output [1]) ∧
    (after (step { asked [] [.drainOutput] with outQ := [1] })).outQ = [1] ∧
    (after (step { asked [] [.clearOutput] with outQ := [1] })).outQ = [] ∧
    (after (step { asked [2] [.build [1, 0]] with pc := 4, inQ := [5] })).pc = 0 ∧
    (after (step { asked [2] [.build [1, 0]] with pc := 4, inQ := [5] })).inQ = [] := by decide

/-- The host is blocked while a run is in progress: its transaction waits (R83, R118). -/
theorem test_requests_wait_for_the_run :
    (after (step { running [104, 5] with requests := [.clearOutput] })).requests =
      [.clearOutput] := by decide

/-! ### What meets the hypotheses of the statements: each theorem below is named after its statement -/

theorem witness_AssembledInstructionIsReadBack :
    let i := Instr.add .pointer .immediate .relative
    let s := running (assemble i [5, -6, 7])
    [5, -6, (7 : Word)].length = i.operandCount ∧ 0 ≤ s.pc.toInt ∧
      s.pc.toInt + i.operandCount ≤ Config.addrMax ∧
      ∀ (j : Nat) (v : Word), (assemble i [5, -6, 7])[j]? = some v →
        s.mem.read (s.pc.toNat + j) = v := by
  refine ⟨by decide, by decide, by decide, ?_⟩
  intro j v h
  rcases j with _ | _ | _ | _ | j <;> simp [assemble] at h <;> subst h <;> decide

/-- The last words of the address range. -/
theorem witness_AssembledInstructionIsReadBack_top :
    let s := (atTop (-1)).setPc 9223372036854775806 |> fun s =>
      s.setMem (s.mem.write 9223372036854775806 204)
    [(-1 : Word)].length = (Instr.out .relative).operandCount ∧ 0 ≤ s.pc.toInt ∧
      s.pc.toInt + (Instr.out .relative).operandCount = Config.addrMax ∧
      ∀ (j : Nat) (v : Word), (assemble (.out .relative) [-1])[j]? = some v →
        s.mem.read (s.pc.toNat + j) = v := by
  refine ⟨by decide, by decide, by decide, ?_⟩
  intro j v h
  rcases j with _ | _ | j <;> simp [assemble] at h <;> subst h <;> decide

theorem witness_SurplusDigitsHaveNoEffect :
    0 ≤ (31104 : Word).toInt ∧ 0 ≤ (104 : Word).toInt ∧
      (31104 : Word).toNat % 100 = (Instr.out .pointer).code ∧
      (31104 : Word).toNat % 10 ^ ((Instr.out .pointer).operandCount + 2) =
        (104 : Word).toNat % 10 ^ ((Instr.out .pointer).operandCount + 2) := by decide

theorem witness_UnknownOpcodeIsInvalidOpcode (w : Word) (h : w = 0 ∨ w = 10 ∨ w = 98 ∨ w = 350) :
    let s := running [w]
    s.call = .running ∧ 0 ≤ s.pc.toInt ∧ 0 ≤ (s.mem.read s.pc.toNat).toInt ∧
      ((s.mem.read s.pc.toNat).toNat % 100 = 0 ∨
        (10 ≤ (s.mem.read s.pc.toNat).toNat % 100 ∧ (s.mem.read s.pc.toNat).toNat % 100 ≤ 98)) := by
  rcases h with rfl | rfl | rfl | rfl <;> decide

theorem witness_UnknownOpcodeIsInvalidOpcode_beyond :
    ((running []).call = .running ∧ 0 ≤ (running []).pc.toInt ∧
      (running []).mem.len ≤ (running []).pc.toNat) ∧
    let s := (running [99]).setPc 9223372036854775807
    s.call = .running ∧ 0 ≤ s.pc.toInt ∧ s.mem.len ≤ s.pc.toNat := by decide

theorem witness_IllegalModeDigitIsInvalidMode (w : Word) (i : Instr) (k : Nat)
    (h : (w = 301 ∧ i = .add .pointer .pointer .pointer ∧ k = 1) ∨
      (w = 30001 ∧ i = .add .pointer .pointer .pointer ∧ k = 3) ∨
      (w = 904 ∧ i = .out .pointer ∧ k = 1) ∨ (w = 9105 ∧ i = .jt .pointer .pointer ∧ k = 2)) :
    let s := running [w]
    s.call = .running ∧ 0 ≤ s.pc.toInt ∧ 0 ≤ (s.mem.read s.pc.toNat).toInt ∧
      (s.mem.read s.pc.toNat).toNat % 100 = i.code ∧ 1 ≤ k ∧ k ≤ i.operandCount ∧
      3 ≤ dig (s.mem.read s.pc.toNat).toNat (k + 1) := by
  rcases h with ⟨rfl, rfl, rfl⟩ | ⟨rfl, rfl, rfl⟩ | ⟨rfl, rfl, rfl⟩ | ⟨rfl, rfl, rfl⟩ <;> decide

theorem witness_NegativeWordAndNegativePc :
    ((running [-1]).call = .running ∧ 0 ≤ (running [-1]).pc.toInt ∧
      ((running [-1]).mem.read (running [-1]).pc.toNat).toInt < 0) ∧
    (((running [99]).setPc (-1)).call = .running ∧ ((running [99]).setPc (-1)).pc.toInt < 0) ∧
    ((running []).setPc (-9223372036854775808)).pc.toInt < 0 := by decide

theorem witness_WellFormedNeverDestinationImmediate :
    (Instr.add .immediate .immediate .pointer).wellFormed = true ∧
      (running [1101, 1, 2, 0]).call = .running ∧
      ∃ t, exec (.add .immediate .immediate .pointer) (running [1101, 1, 2, 0]) = .next t :=
  ⟨rfl, rfl, _, rfl⟩

theorem witness_StepRunsTheDecodedInstruction :
    let s := running [1101, 1, 2, 0]
    s.call = .running ∧ 0 ≤ s.pc.toInt ∧
      decode (s.mem.read s.pc.toNat) = .ok (.add .immediate .immediate .pointer) := by decide

/-- One step that goes on and one that returns. -/
theorem witness_StepsThatReturnChangeNothing :
    (∃ t, step (running [1101, 1, 2, 0]) = .next t ∧ t.call = .running) ∧
    (∃ t, step (running [99]) = .next t ∧ t.call = .returned (.outcome .halted)) :=
  ⟨⟨_, rfl, rfl⟩, ⟨_, rfl, rfl⟩⟩

theorem witness_HaltedExactlyAtHlt :
    (running [99]).call = .running ∧ 0 ≤ (running [99]).pc.toInt ∧
      decode ((running [99]).mem.read (running [99]).pc.toNat) = .ok .hlt ∧
      0 ≤ (running []).pc.toInt ∧ (running []).mem.len ≤ (running []).pc.toNat := by decide

/-- A state in which the step suspends: IN with its queue empty, whatever its mode. -/
theorem witness_AwaitingInputExactlyAtEmptyIn :
    (running [103, 0]).call = .running ∧ (running [103, 0]).inQ = [] ∧
      ∃ t, step (running [103, 0]) = .next t ∧ t.call = .returned (.outcome .awaitingInput) :=
  ⟨rfl, rfl, _, rfl, rfl⟩

theorem witness_ResumedInConsumesTheOldestWord :
    let s := running [3, 5]
    s.call = .running ∧ 0 ≤ s.pc.toInt ∧
      decode (s.mem.read s.pc.toNat) = .ok (.inp .pointer) ∧ s.inQ = [] ∧
      (∃ t, step s = .next t) ∧ DestAddress s 1 .pointer 5 :=
  ⟨by decide, by decide, by decide, by decide, ⟨_, rfl⟩, by decide⟩

/-- Each of the three kinds of outcome. -/
theorem witness_RunAgainReturnsTheSameOutcome :
    (∃ t, step (running [99]) = .next t ∧ t.call = .returned (.outcome .halted)) ∧
    (∃ t, step (running [0]) = .next t ∧ t.call = .returned (.outcome (.fatal .invalidOpcode))) ∧
    (∃ t, step (running [3, 0]) = .next t ∧ t.call = .returned (.outcome .awaitingInput)) :=
  ⟨⟨_, rfl, rfl⟩, ⟨_, rfl, rfl⟩, ⟨_, rfl, rfl⟩⟩

/-- ADD writes a MUL over the word behind itself; MUL, LT and EQ write an ADD. -/
theorem witness_StoreIntoTheNextInstructionIsFetched (w x : Word) (op : Mode → Mode → Mode → Instr)
    (j : Instr)
    (h : (w = 1101 ∧ x = 1 ∧ op = Instr.add ∧ j = .mul .pointer .pointer .pointer) ∨
      (w = 1102 ∧ x = 1 ∧ op = Instr.mul ∧ j = .add .pointer .pointer .pointer) ∨
      (w = 1107 ∧ x = 0 ∧ op = Instr.lt ∧ j = .add .pointer .pointer .pointer) ∨
      (w = 1108 ∧ x = 1 ∧ op = Instr.eq ∧ j = .add .pointer .pointer .pointer)) :
    let s := running [w, x, 1, 4]
    let t := after (exec (op .immediate .immediate .pointer) s)
    s.call = .running ∧ exec (op .immediate .immediate .pointer) s = .next t ∧ t.call = .running ∧
      storeAddrSSD s .immediate .immediate .pointer = some 4 ∧
      s.pc.toInt + 4 ≤ Config.addrMax ∧ ((4 : Nat) : Int) = s.pc.toInt + 4 ∧
      decode (t.mem.read 4) = .ok j := by
  rcases h with ⟨rfl, rfl, rfl, rfl⟩ | ⟨rfl, rfl, rfl, rfl⟩ | ⟨rfl, rfl, rfl, rfl⟩ |
    ⟨rfl, rfl, rfl, rfl⟩ <;>
    exact ⟨by decide, rfl, by decide, by decide, by decide, by decide, by decide⟩

theorem witness_WrapIsTheCongruentWord :
    (-9223372036854775808 ≤ (9223372036854775807 : Int) ∧
      (9223372036854775807 : Int) ≤ 9223372036854775807) ∧
    (-9223372036854775808 : Int) ≤ 9223372036854775807 := by decide

/-- A state for the four-word instructions: operand words 6, -2, 3, a Relative base of 5. -/
def fourWords : State := (running [0, 6, -2, 3, 0, 0, 44]).setRb 5

/-- The hypotheses of AddStoresTheWrappedSum, MulStoresTheWrappedProduct, LtStoresTheSignedComparison
and EqStoresTheEquality, which do not name the instruction word: every mode of a source and of a
destination. -/
theorem witness_FourWordResults :
    SourceValue fourWords 1 .pointer 44 ∧ SourceValue fourWords 1 .immediate 6 ∧
    SourceValue fourWords 1 .relative 0 ∧ SourceValue fourWords 2 .immediate (-2) ∧
    SourceValue fourWords 2 .relative 3 ∧ DestAddress fourWords 3 .pointer 3 ∧
    DestAddress fourWords 3 .relative 8 := by
  refine ⟨?_, ?_, ?_, ?_, ?_, ?_, ?_⟩ <;> decide

/-- The last address, for a source and for a destination. -/
theorem witness_FourWordResults_top :
    let s := running [0, 9223372036854775807, 9223372036854775807, 9223372036854775807]
    SourceValue s 1 .pointer 0 ∧ SourceValue s 2 .pointer 0 ∧
      DestAddress s 3 .pointer 9223372036854775807 := by decide

/-- Each clause of the order of errors: an operand word out of range; a bad first source; a bad second
source, one word below the range and one above it; an Immediate destination; a bad destination. -/
theorem witness_FourWordErrorsInOrder :
    (¬ ValidAddress (operandAddress (atTop 1) 1)) ∧
    (let s := running [1, -1, 0, 0]
     ValidAddress (operandAddress s 1) ∧ ValidAddress (operandAddress s 2) ∧
       ValidAddress (operandAddress s 3) ∧ BadAddress s 1 .pointer) ∧
    (let s := (running [2001, 0, 1, 0]).setRb 9223372036854775807
     ValidAddress (operandAddress s 3) ∧ BadAddress s 2 .relative) ∧
    (let s := running [10001, 0, 0, -1]
     ¬ BadAddress s 1 .pointer ∧ ¬ BadAddress s 2 .pointer ∧ ¬ BadAddress s 3 .immediate) ∧
    (let s := running [1, 0, 0, -1]
     ValidAddress (operandAddress s 3) ∧ ¬ BadAddress s 1 .pointer ∧ ¬ BadAddress s 2 .pointer ∧
       BadAddress s 3 .pointer) := by decide

/-- A step that stores and a step that does not. -/
theorem witness_FourWordFrame :
    (∃ t, exec (.add .immediate .immediate .pointer) (running [1101, 1, 2, 0]) = .next t) ∧
    storeAddrSSD (running [1101, 1, 2, 0]) .immediate .immediate .pointer = some 0 ∧
    (∃ t, exec (.eq .immediate .immediate .pointer) (running [1108, 1, 2, -1]) = .next t) ∧
    storeAddrSSD (running [1108, 1, 2, -1]) .immediate .immediate .pointer = none :=
  ⟨⟨_, rfl⟩, by decide, ⟨_, rfl⟩, by decide⟩

theorem witness_InStoresTheOldestWord :
    let s := ((running [203, -3]).setRb 3).setInQ [7, 8]
    s.inQ = 7 :: [8] ∧ DestAddress s 1 .relative 0 ∧
      let u := (running [3, 9223372036854775807]).setInQ [7]
      DestAddress u 1 .pointer 9223372036854775807 := by decide

/-- Each clause: the empty queue; no operand word; an Immediate destination; a bad address. -/
theorem witness_InSuspendsThenChecksItsDestination :
    (running [3, 0]).inQ = [] ∧
    (((atTop 3).setInQ [1]).inQ ≠ [] ∧
      ¬ ValidAddress (operandAddress ((atTop 3).setInQ [1]) 1)) ∧
    ValidAddress (operandAddress ((running [103, -1]).setInQ [1]) 1) ∧
    BadAddress ((running [3, -1]).setInQ [1]) 1 .pointer := by decide

theorem witness_InFrame :
    (∃ t, exec (.inp .pointer) ((running [3, 5]).setInQ [7]) = .next t) ∧
    storeAddrD ((running [3, 5]).setInQ [7]) .pointer = some 5 ∧
    (∃ t, exec (.inp .pointer) (running [3, 5]) = .next t) ∧
    storeAddrD (running [3, 5]) .pointer = none :=
  ⟨⟨_, rfl⟩, by decide, ⟨_, rfl⟩, by decide⟩

/-- The hypotheses of OutAppendsItsSource and of ArbAddsToTheRelativeBase. -/
theorem witness_OneSourceResults :
    SourceValue fourWords 1 .pointer 44 ∧ SourceValue fourWords 1 .immediate 6 ∧
    SourceValue ((running [204, 1, 9]).setRb 1) 1 .relative 9 := by decide

theorem witness_OneSourceErrors :
    ¬ ValidAddress (operandAddress (atTop 104) 1) ∧
    BadAddress ((running [204, 0]).setRb (-1)) 1 .relative ∧
    BadAddress ((running [209, 1]).setRb 9223372036854775807) 1 .relative := by decide

/-- The hypotheses of JtJumpsUnlessZero and of JfJumpsWhenZero: a condition that is 0 and one that is
not, and a negative target. -/
theorem witness_JumpResults :
    (SourceValue (running [1105, 0, -7]) 1 .immediate 0 ∧
      SourceValue (running [1105, 0, -7]) 2 .immediate (-7)) ∧
    (SourceValue fourWords 1 .pointer 44 ∧ SourceValue fourWords 2 .relative 3) := by decide

/-- Each way to the one error: the last address, the last but one, and either operand. -/
theorem witness_JumpErrors :
    ¬ ValidAddress (operandAddress (atTop 5) 1) ∧
    ¬ ValidAddress (operandAddress ((atTop 5).setPc 9223372036854775806) 2) ∧
    BadAddress (running [5, -1, 0]) 1 .pointer ∧ BadAddress (running [5, 0, -1]) 2 .pointer := by
  decide

theorem witness_NonStoringFrames :
    (∃ t, exec (.out .immediate) (running [104, 1]) = .next t) ∧
    (∃ t, exec (.arb .immediate) (running [109, 1]) = .next t) ∧
    (∃ t, exec (.jt .immediate .immediate) (running [1105, 1, 1]) = .next t) ∧
    (∃ t, exec (.jf .immediate .immediate) (running [1106, 1, 1]) = .next t) ∧
    (∃ t, exec .hlt (running [99]) = .next t) :=
  ⟨⟨_, rfl⟩, ⟨_, rfl⟩, ⟨_, rfl⟩, ⟨_, rfl⟩, ⟨_, rfl⟩⟩

/-- Stores at rising addresses at and beyond the current length, and addresses on either side. -/
theorem witness_MemoryHoldsTheLastStores :
    let m := Memory.ofImage [99]
    m.len ≤ 1 ∧ 0 < m.len ∧ m.len ≤ 5 ∧ m.len ≤ 4 ∧ 4 < 5 ∧
      ([(1, 7), (5, 0)] : List (Nat × Word)).Pairwise (fun c d => c.1 < d.1) ∧
      (∀ c ∈ ([(1, 7), (5, 0)] : List (Nat × Word)), m.len ≤ c.1) ∧
      (∀ c ∈ ([(1, 7), (5, 0)] : List (Nat × Word)), c.1 ≠ 4) := by decide

/-- A step by OUT, for OutputOnlyGrowsByOut. -/
theorem witness_OutputOnlyGrowsByOut :
    (running [104, 1]).call = .running ∧ ∃ t, step (running [104, 1]) = .next t ∧ t.outQ = [1] :=
  ⟨rfl, _, rfl, rfl⟩

/-- A step by IN, for InputOnlyLosesItsFrontToIn. -/
theorem witness_InputOnlyLosesItsFrontToIn :
    ((running [3, 0]).setInQ [7]).call = .running ∧
      ∃ t, step ((running [3, 0]).setInQ [7]) = .next t ∧ t.inQ = [] :=
  ⟨rfl, _, rfl, rfl⟩

/-- ARB changes `RB`; so does a build. -/
theorem witness_OnlyArbAndBuildChangeTheRelativeBase :
    (after (step (running [109, 5]))).rb ≠ (running [109, 5]).rb ∧
    (after (step ((asked [] [.build []]).setRb 5))).rb ≠ ((asked [] [.build []]).setRb 5).rb := by
  decide

/-- A jump taken, for PcIsWrittenByWidthOrJump. -/
theorem witness_PcIsWrittenByWidthOrJump :
    (running [1105, 1, -7]).call = .running ∧
      ∃ t, step (running [1105, 1, -7]) = .next t ∧ t.pc = -7 :=
  ⟨rfl, _, rfl, rfl⟩

/-- A step that stores; one of an instruction that does not; and the two ways to decode none. -/
theorem witness_AStepStoresOneWordAtMost :
    (let s := running [1101, 1, 2, 9]
     s.call = .running ∧ (∃ t, step s = .next t ∧ t.mem.len = 10) ∧ 0 ≤ s.pc.toInt ∧
       decode (s.mem.read s.pc.toNat) = .ok (.add .immediate .immediate .pointer) ∧
       storeAddr (.add .immediate .immediate .pointer) s = some 9) ∧
    (let s := running [3, 9]
     (∃ t, step s = .next t) ∧ decode (s.mem.read s.pc.toNat) = .ok (.inp .pointer) ∧
       storeAddr (.inp .pointer) s = none) ∧
    ((∃ t, step ((running []).setPc (-1)) = .next t) ∧ ((running []).setPc (-1)).pc.toInt < 0) ∧
    ((∃ t, step (running [0]) = .next t) ∧
      ∀ i, decode ((running [0]).mem.read (running [0]).pc.toNat) ≠ .ok i) := by
  refine ⟨⟨by decide, ⟨_, rfl, rfl⟩, by decide, by decide, by decide⟩,
    ⟨⟨_, rfl⟩, by decide, by decide⟩, ⟨⟨_, rfl⟩, by decide⟩, ⟨_, rfl⟩, ?_⟩
  intro i h
  cases (show Except.error DecodeError.invalidOpcode = Except.ok i from h)

/-- Two states that differ in their current length alone. -/
theorem witness_CurrentLengthIsUnobservable :
    Agree (running [99]) (running [99, 0]) ∧ (running [99]).mem.len ≠ (running [99, 0]).mem.len := by
  refine ⟨⟨rfl, rfl, rfl, rfl, rfl, rfl, ?_⟩, by decide⟩
  intro a _
  rcases a with _ | _ | a
  · decide
  · decide
  · simp [running, Memory.ofImage, imageCells, Memory.read, State.reset, Config.unlisted]

/-- Read one word, output it, halt: suspended at once with nothing queued, and finished by a later
run. -/
theorem witness_InputStagingDoesNotMatter :
    let s := running [3, 0, 4, 0, 99]
    s.call = .running ∧ ∃ t, runLoop 1 s = some t ∧ t.call = .returned (.outcome .awaitingInput) ∧
      ∃ u, runLoop 3 (resume (pushAll [7] t)) = some u ∧ u.outQ = [7] ∧
        u.call = .returned (.outcome .halted) :=
  ⟨rfl, _, rfl, rfl, _, rfl, rfl, rfl⟩

theorem witness_ARunEndsInAnOutcomeOfItsOwn :
    (running [104, 5, 99]).call = .running ∧ ∃ t, runLoop 2 (running [104, 5, 99]) = some t :=
  ⟨rfl, _, rfl⟩

/-- A run in progress, and an idle host with an image to build, meet the invariant. -/
theorem witness_EveryStepKeepsInv :
    Inv (running [1101, 1, 2, 9]) ∧ (∃ t, step (running [1101, 1, 2, 9]) = .next t) ∧
    Inv (asked [1] [.build [1, 0]]) ∧ (∃ t, step (asked [1] [.build [1, 0]]) = .next t) := by
  refine ⟨⟨by decide, by decide, ?_⟩, ⟨_, rfl⟩, ⟨by decide, by decide, ?_⟩, ⟨_, rfl⟩⟩
  · intro t ht
    cases ht
  · intro t ht
    rcases List.mem_singleton.1 ht with rfl
    show [1, (0 : Word)].length ≤ Config.maxLen
    decide

theorem witness_CanonicalMemoriesThatReadAlikeAreEqual :
    (Memory.ofImage [5, 0, 6]).wf ∧ ((Memory.ofImage [5]).write 2 6).wf ∧
      (Memory.ofImage [5, 0, 6]).len = ((Memory.ofImage [5]).write 2 6).len ∧
      ∀ a : Nat, (Memory.ofImage [5, 0, 6]).read a = ((Memory.ofImage [5]).write 2 6).read a :=
  ⟨by decide, by decide, by decide, fun _ => rfl⟩

/-- An image of two words, and the empty image. -/
theorem witness_BuildGivesTheResetState :
    (asked [2] [.build [1, 0], .run]).call ≠ .running ∧
      (asked [2] [.build [1, 0], .run]).requests = .build [1, 0] :: [.run] ∧
      (asked [2] [.build []]).requests = .build [] :: [] := by decide

/-- Addresses 0, 2^63 - 1 and -1, for PeekReadsOneWord and PokeStoresOneWord. -/
theorem witness_PeekPoke :
    (asked [2] [.peek 0]).call ≠ .running ∧ (asked [2] [.peek 0]).requests = .peek 0 :: [] ∧
    (asked [2] [.poke 0 7]).call ≠ .running ∧ (asked [2] [.poke 0 7]).requests = .poke 0 7 :: [] ∧
    0 ≤ (0 : Word).toInt ∧ 0 ≤ (9223372036854775807 : Word).toInt ∧ (-1 : Word).toInt < 0 := by
  decide

theorem witness_PushInputAppends :
    (asked [2] [.pushInput 7]).call ≠ .running ∧
      (asked [2] [.pushInput 7]).requests = .pushInput 7 :: [] := by decide

/-- Two calls in a row, two calls with every other transaction that may stand between them, and a run
that returns. -/
theorem witness_DrainOutputLeavesTheQueue :
    ((asked [2] [.drainOutput, .drainOutput]).call ≠ .running ∧
      (asked [2] [.drainOutput, .drainOutput]).requests = .drainOutput :: ([] ++ .drainOutput :: [])) ∧
    (let between : List Transaction := [.peek 0, .poke 1 2, .pushInput 3, .drainOutput]
     (asked [2] (.drainOutput :: (between ++ [.drainOutput]))).call ≠ .running ∧
       ∀ r ∈ between, r ≠ .run ∧ r ≠ .clearOutput ∧ ∀ image, r ≠ .build image) ∧
    ((running [104, 5, 99]).call = .running ∧ ∃ t, runLoop 2 (running [104, 5, 99]) = some t) :=
  ⟨by decide, ⟨by decide, by simp⟩, rfl, _, rfl⟩

theorem witness_ClearOutputAndRun :
    (asked [2] [.clearOutput]).call ≠ .running ∧
      (asked [2] [.clearOutput]).requests = .clearOutput :: [] ∧
      (asked [2] [.run]).call ≠ .running ∧ (asked [2] [.run]).requests = .run :: [] := by decide

theorem witness_AnIdleInstanceKeepsItsState :
    State.reset.call ≠ .running ∧ State.reset.requests = [] := by decide

/-- P5 of 95_test_vectors.md, one relay: two halted instances. A giver still in its run has none. -/
theorem test_relay :
    let giver := (asked [] []).setOutQ [10, 20]
    let taker := (asked [] []).setInQ [1]
    (relay giver taker).map (fun p => (p.1.outQ, p.2.inQ)) = some ([], [1, 10, 20]) ∧
      relay (resume giver) taker = none ∧ relay giver (resume taker) = none := by decide

/-- H2: a run of HLT returns Halted; asked during a run it is no move of the host. -/
theorem test_run :
    (run 1 (asked [99] [])).map Prod.fst = some .halted ∧ run 1 (running [99]) = none := by decide

theorem witness_RelayKeepsTheOrder :
    let giver := (asked [] []).setOutQ [10]
    giver.call ≠ .running ∧ State.reset.call ≠ .running ∧ (resume giver).call = .running := by decide

end Sys2Proof.Tests
end

section
namespace Sys2Proof.Machine

/-- R7: a wrapped number, read back as an integer, is its balanced remainder modulo 2^64. -/
theorem toInt_wrap64 (r : Int) : (wrap64 r).toInt = r.bmod (2 ^ 64) := BitVec.toInt_ofInt r

/-- R7, congruence: `wrap64` changes a number by a multiple of 2^64. -/
theorem toInt_wrap64_eq_sub_mul_bdiv (r : Int) :
    (wrap64 r).toInt = r - 2 ^ 64 * r.bdiv (2 ^ 64) := by
  rw [toInt_wrap64]
  exact Int.bmod_eq_self_sub_mul_bdiv r (2 ^ 64)

/-- R7: `wrap64` leaves a number that is a word as it is. -/
theorem toInt_wrap64_of_mem_range {r : Int} (hlo : -2 ^ 63 ≤ r) (hhi : r < 2 ^ 63) :
    (wrap64 r).toInt = r := by
  rw [toInt_wrap64]
  exact Int.bmod_eq_of_le hlo hhi

/-- Settles O18: the quotient of the congruence is the balanced one, negated; the range is that of a
signed 64-bit word. -/
theorem wrapIsTheCongruentWord : Obligations.WrapIsTheCongruentWord := by
  intro r
  have hlo : -2 ^ 63 ≤ (wrap64 r).toInt := BitVec.le_toInt (wrap64 r)
  have hhi : (wrap64 r).toInt < 2 ^ 63 := BitVec.toInt_lt
  refine ⟨⟨-r.bdiv (2 ^ 64), ?_⟩, by omega, by omega, fun h₁ h₂ => ?_⟩
  · rw [toInt_wrap64_eq_sub_mul_bdiv]
    omega
  · exact toInt_wrap64_of_mem_range (by omega) (by omega)

end Sys2Proof.Machine
end

section
namespace Sys2Proof.Machine

/-! ### What a step of a run can do -/

/-- R72, R73: `exec_cases` as a relation, the ways in which executing `i` takes `s` to `t`. A rule about
the whole machine is then a case split that names the effects it is about. -/
inductive Effect (s : State) : Instr → State → Prop where
  | fault {i : Instr} (k : Fault) : Effect s i (raise k s)
  | halt : Effect s .hlt (returnRun .halted s)
  | suspend (m1 : Mode) : Effect s (.inp m1) (returnRun .awaitingInput s)
  | store {i : Instr} {m1 m2 m3 : Mode} {a b : Word} {d : Nat} (v : Word)
      (hi : i = .add m1 m2 m3 ∨ i = .mul m1 m2 m3 ∨ i = .lt m1 m2 m3 ∨ i = .eq m1 m2 m3)
      (hr : resolveSSD s m1 m2 m3 = .ok (a, b, d)) :
      Effect s i ((s.setMem (s.mem.write d v)).advance 4)
  | input {m1 : Mode} {v : Word} {rest : List Word} {d : Nat}
      (hq : s.inQ = v :: rest) (hr : resolveD s m1 = .ok d) :
      Effect s (.inp m1) (((s.setInQ rest).setMem (s.mem.write d v)).advance 2)
  | output (m1 : Mode) (v : Word) : Effect s (.out m1) ((s.setOutQ (s.outQ ++ [v])).advance 2)
  | rebase (m1 : Mode) (v : Word) : Effect s (.arb m1) ((s.setRb v).advance 2)
  | jump {i : Instr} {m1 m2 : Mode} {c a : Word} (hi : i = .jt m1 m2 ∨ i = .jf m1 m2)
      (hr : resolveSS s m1 m2 = .ok (c, a)) : Effect s i (s.setPc a)
  | fallThrough {i : Instr} {m1 m2 : Mode} (hi : i = .jt m1 m2 ∨ i = .jf m1 m2) :
      Effect s i (s.advance 3)

theorem effect_of_exec {i : Instr} {s t : State} (h : exec i s = .next t) : Effect s i t := by
  rcases exec_cases i s t h with ⟨k, rfl⟩ | ⟨rfl, rfl⟩ | ⟨m1, rfl, -, rfl⟩ |
    ⟨m1, m2, m3, a, b, d, f, hi, hr, rfl⟩ | ⟨m1, v, rest, d, rfl, hq, hr, rfl⟩ |
    ⟨m1, v, rfl, -, rfl⟩ | ⟨m1, v, rfl, -, rfl⟩ | ⟨m1, m2, c, a, hi, hr, rfl | rfl⟩
  · exact .fault k
  · exact .halt
  · exact .suspend m1
  · exact .store (f a b) hi hr
  · exact .input hq hr
  · exact .output m1 v
  · exact .rebase m1 _
  · exact .jump hi hr
  · exact .fallThrough hi

/-- R73: a step of a run takes an error of the fetch or of the decoder, or has an effect of the
instruction at `PC`. -/
theorem running_step_cases {s t : State} (hrun : s.call = .running) (hs : step s = .next t) :
    (∃ k, t = raise k s) ∨
      ∃ i, 0 ≤ s.pc.toInt ∧ decode (s.mem.read s.pc.toNat) = .ok i ∧ Effect s i t := by
  rw [step_of_running s hrun] at hs
  rcases engineStep_cases s t hs with ⟨k, -, rfl⟩ | ⟨i, hf, he⟩
  · exact .inl ⟨k, rfl⟩
  · obtain ⟨hpc, hdec⟩ := (fetchDecode_eq_ok s i).1 hf
    exact .inr ⟨i, hpc, hdec, effect_of_exec he⟩

theorem Effect.requests {s t : State} {i : Instr} (e : Effect s i t) :
    t.requests = s.requests := by cases e <;> rfl

theorem running_step_requests {s t : State} (hrun : s.call = .running) (hs : step s = .next t) :
    t.requests = s.requests := by
  rcases running_step_cases hrun hs with ⟨k, rfl⟩ | ⟨i, -, -, e⟩
  · rfl
  · exact e.requests

/-! ### The address stored to, and the length of memory -/

theorem destAddress_of_storeAddrSSD {s : State} {m1 m2 m3 : Mode} {d : Nat}
    (h : storeAddrSSD s m1 m2 m3 = some d) : DestAddress s 3 m3 d := by
  unfold storeAddrSSD at h
  split at h
  case h_1 a b d' hr =>
    cases h
    obtain ⟨-, -, hd⟩ := (resolveSSD_eq_ok s m1 m2 m3 a b d).1 hr
    exact hd
  case h_2 => cases h

theorem destAddress_of_storeAddrD {s : State} {m1 : Mode} {d : Nat}
    (h : storeAddrD s m1 = some d) : DestAddress s 1 m1 d := by
  unfold storeAddrD at h
  split at h
  case h_1 d' _ hr =>
    cases h
    exact (resolveD_eq_ok s m1 d).1 hr
  case h_2 => cases h
  case h_3 => cases h

/-- R34, R40: the address an instruction stores to is the one its destination operand names. -/
theorem destAddress_of_storeAddr {i : Instr} {s : State} {d : Nat} (h : storeAddr i s = some d) :
    ∃ k m, i.destMode = some m ∧ DestAddress s k m d := by
  cases i with
  | add m1 m2 m3 => exact ⟨3, m3, rfl, destAddress_of_storeAddrSSD h⟩
  | mul m1 m2 m3 => exact ⟨3, m3, rfl, destAddress_of_storeAddrSSD h⟩
  | lt m1 m2 m3 => exact ⟨3, m3, rfl, destAddress_of_storeAddrSSD h⟩
  | eq m1 m2 m3 => exact ⟨3, m3, rfl, destAddress_of_storeAddrSSD h⟩
  | inp m1 => exact ⟨1, m1, rfl, destAddress_of_storeAddrD h⟩
  | _ => cases h

theorem destMode_ne_none_of_storeAddr {i : Instr} {s : State} {d : Nat}
    (h : storeAddr i s = some d) : i.destMode ≠ none := by
  obtain ⟨k, m, hm, -⟩ := destAddress_of_storeAddr h
  simp [hm]

/-- R24: a valid address is below the largest current length. -/
theorem toNat_lt_maxLen {a : Int} (h : a ≤ 9223372036854775807) : a.toNat < Config.maxLen := by
  unfold Config.maxLen
  omega

theorem storeAddr_lt_maxLen {i : Instr} {s : State} {d : Nat} (h : storeAddr i s = some d) :
    d < Config.maxLen := by
  obtain ⟨k, m, -, -, -, ⟨-, hmax⟩, rfl⟩ := destAddress_of_storeAddr h
  exact toNat_lt_maxLen hmax

/-- R11: the current length never falls. -/
theorem Memory.len_le_len_write (m : Memory) (a : Nat) (v : Word) : m.len ≤ (m.write a v).len := by
  rw [Memory.len_write]
  split <;> omega

theorem Memory.len_write_le_maxLen {m : Memory} {a : Nat} (v : Word) (hm : m.len ≤ Config.maxLen)
    (ha : a < Config.maxLen) : (m.write a v).len ≤ Config.maxLen := by
  rw [Memory.len_write]
  split
  · exact hm
  · exact ha

/-- R40: an instruction leaves memory as it is, or stores one word at the address `storeAddr` gives. -/
theorem Effect.mem_cases {s t : State} {i : Instr} (e : Effect s i t) :
    t.mem = s.mem ∨ ∃ d v, storeAddr i s = some d ∧ t.mem = s.mem.write d v := by
  cases e with
  | @store _ m1 m2 m3 a b d v hi hr =>
    have hd := storeAddrSSD_of_ok s m1 m2 m3 a b d hr
    exact .inr ⟨d, v, by rcases hi with rfl | rfl | rfl | rfl <;> exact hd, rfl⟩
  | @input m1 v rest d hq hr => exact .inr ⟨d, v, storeAddrD_of_ok s m1 v rest d hq hr, rfl⟩
  | _ => exact .inl rfl

theorem running_step_mem_cases {s t : State} (hrun : s.call = .running) (hs : step s = .next t) :
    t.mem = s.mem ∨ ∃ i d v, 0 ≤ s.pc.toInt ∧ decode (s.mem.read s.pc.toNat) = .ok i ∧
      storeAddr i s = some d ∧ t.mem = s.mem.write d v := by
  rcases running_step_cases hrun hs with ⟨k, rfl⟩ | ⟨i, hpc, hdec, e⟩
  · exact .inl rfl
  · rcases e.mem_cases with hm | ⟨d, v, hd, hm⟩
    · exact .inl hm
    · exact .inr ⟨i, d, v, hpc, hdec, hd, hm⟩

/-! ### The host's move -/

theorem hostMove_nil {s : State} (h : s.requests = []) : hostMove s = s := by
  simp only [hostMove, h]

theorem hostMove_cons {s : State} {r : Transaction} {rest : List Transaction}
    (h : s.requests = r :: rest) : hostMove s = perform r (s.setRequests rest) := by
  simp only [hostMove, h]

theorem perform_peek_eq_reply (a : Word) (s : State) : ∃ r, perform (.peek a) s = reply r s := by
  unfold perform hostPeek
  dsimp only
  split <;> exact ⟨_, rfl⟩

/-- R86: a poke stores at a valid address or only answers an error. -/
theorem perform_poke_cases (a v : Word) (s : State) :
    perform (.poke a v) s = reply .done (s.setMem (s.mem.write a.toInt.toNat v)) ∨
      ∃ k, perform (.poke a v) s = reply (.error k) s := by
  unfold perform hostPoke
  dsimp only
  split
  case h_1 m hm =>
    obtain ⟨-, -, rfl⟩ := (memWrite_eq_ok s.mem m a.toInt v).1 hm
    exact .inl rfl
  case h_2 k hk => exact .inr ⟨k, rfl⟩

/-- No transaction touches what the host has still to ask. -/
@[simp] theorem perform_requests (r : Transaction) (s : State) :
    (perform r s).requests = s.requests := by
  cases r with
  | peek a =>
    obtain ⟨r, h⟩ := perform_peek_eq_reply a s
    rw [h]
    rfl
  | poke a v =>
    rcases perform_poke_cases a v s with h | ⟨k, h⟩ <;> rw [h] <;> rfl
  | _ => rfl

/-- R13, R83: of the transactions only a build writes `RB`. -/
theorem perform_rb (r : Transaction) (s : State) (h : ∀ image, r ≠ .build image) :
    (perform r s).rb = s.rb := by
  cases r with
  | build image => exact absurd rfl (h image)
  | peek a =>
    obtain ⟨r, h⟩ := perform_peek_eq_reply a s
    rw [h]
    rfl
  | poke a v =>
    rcases perform_poke_cases a v s with h | ⟨k, h⟩ <;> rw [h] <;> rfl
  | _ => rfl

/-- R83: of the transactions only a build and a poke write memory. -/
theorem perform_mem_cases (r : Transaction) (s : State) :
    (perform r s).mem = s.mem ∨
      (∃ image, r = .build image ∧ (perform r s).mem = Memory.ofImage image) ∨
      ∃ a v : Word, (perform r s).mem = s.mem.write a.toInt.toNat v := by
  cases r with
  | build image => exact .inr (.inl ⟨image, rfl, rfl⟩)
  | peek a =>
    obtain ⟨r, h⟩ := perform_peek_eq_reply a s
    exact .inl (by rw [h]; rfl)
  | poke a v =>
    rcases perform_poke_cases a v s with h | ⟨k, h⟩
    · exact .inr (.inr ⟨a, v, by rw [h]; rfl⟩)
    · exact .inl (by rw [h]; rfl)
  | _ => exact .inl rfl

end Sys2Proof.Machine
end

section
namespace Sys2Proof.Machine

/-! ### The invariant -/

theorem inv_of_running_step {s t : State} (hrun : s.call = .running) (hs : step s = .next t)
    (h : Inv s) : Inv t := by
  obtain ⟨hwf, hlen, hreq⟩ := h
  unfold Inv
  rw [running_step_requests hrun hs]
  rcases running_step_mem_cases hrun hs with hm | ⟨i, d, v, -, -, hd, hm⟩ <;> rw [hm]
  · exact ⟨hwf, hlen, hreq⟩
  · exact ⟨s.mem.wf_write d v hwf, Memory.len_write_le_maxLen v hlen (storeAddr_lt_maxLen hd), hreq⟩

theorem inv_perform {r : Transaction} {s : State} (hr : r.fits) (h : Inv s) : Inv (perform r s) := by
  obtain ⟨hwf, hlen, hreq⟩ := h
  unfold Inv
  rw [perform_requests]
  rcases perform_mem_cases r s with hm | ⟨image, rfl, hm⟩ | ⟨a, v, hm⟩ <;> rw [hm]
  · exact ⟨hwf, hlen, hreq⟩
  · exact ⟨Memory.wf_ofImage image, hr, hreq⟩
  · have ha := toNat_lt_maxLen (toInt_le_addrMax a)
    exact ⟨s.mem.wf_write _ v hwf, Memory.len_write_le_maxLen v hlen ha, hreq⟩

theorem inv_hostMove {s : State} (h : Inv s) : Inv (hostMove s) := by
  cases hq : s.requests with
  | nil => rwa [hostMove_nil hq]
  | cons r rest =>
    rw [hostMove_cons hq]
    obtain ⟨hwf, hlen, hreq⟩ := h
    rw [hq, List.forall_mem_cons] at hreq
    exact inv_perform hreq.1 ⟨hwf, hlen, hreq.2⟩

/-- Settles O46: the engine's step stores one word at a valid address at most, and so does the host's
move unless it builds an image, which fits by the invariant. -/
theorem everyStepKeepsInv : Obligations.EveryStepKeepsInv := by
  intro s t h hs
  by_cases hrun : s.call = .running
  · exact inv_of_running_step hrun hs h
  · rw [step_of_host s hrun] at hs
    cases hs
    exact inv_hostMove h

/-- Settles O45: the memory at reset is that of the empty image. -/
theorem invHoldsAtReset : Obligations.InvHoldsAtReset :=
  ⟨Memory.wf_ofImage [], Nat.zero_le _, nofun⟩

/-! ### What a step of a run writes -/

/-- Settles O37: OUT is the one effect that touches the output queue. -/
theorem outputOnlyGrowsByOut : Obligations.OutputOnlyGrowsByOut := by
  intro s t hrun hs
  rcases running_step_cases hrun hs with ⟨k, rfl⟩ | ⟨i, -, hdec, e⟩
  · exact .inl rfl
  · cases e with
    | output m1 v => exact .inr ⟨m1, v, hdec, rfl⟩
    | _ => exact .inl rfl

/-- Settles O38: a completed IN is the one effect that touches the input queue. -/
theorem inputOnlyLosesItsFrontToIn : Obligations.InputOnlyLosesItsFrontToIn := by
  intro s t hrun hs
  rcases running_step_cases hrun hs with ⟨k, rfl⟩ | ⟨i, -, hdec, e⟩
  · exact .inl rfl
  · cases e with
    | @input m1 v rest d hq hr =>
      exact .inr ⟨m1, v, d, hdec, hq, storeAddrD_of_ok s m1 v rest d hq hr,
        s.mem.read_write_same d v⟩
    | _ => exact .inl rfl

/-- Settles O39: ARB is the one effect, and build the one transaction, that touches `RB`. -/
theorem onlyArbAndBuildChangeTheRelativeBase :
    Obligations.OnlyArbAndBuildChangeTheRelativeBase := by
  intro s t hs hne
  by_cases hrun : s.call = .running
  · rcases running_step_cases hrun hs with ⟨k, rfl⟩ | ⟨i, -, hdec, e⟩
    · exact absurd rfl hne
    · cases e with
      | rebase m1 v => exact .inl ⟨hrun, m1, hdec⟩
      | _ => exact absurd rfl hne
  · rw [step_of_host s hrun] at hs
    cases hs
    cases hq : s.requests with
    | nil => exact absurd (by rw [hostMove_nil hq]) hne
    | cons r rest =>
      rw [hostMove_cons hq] at hne
      by_cases hb : ∀ image, r ≠ .build image
      · exact absurd (perform_rb r _ hb) hne
      · obtain ⟨image, rfl⟩ := not_forall_not.1 hb
        exact .inr ⟨hrun, image, rest, rfl⟩

/-- Settles O40: each completed effect advances by its own width, and a taken jump writes its second
source. -/
theorem pcIsWrittenByWidthOrJump : Obligations.PcIsWrittenByWidthOrJump := by
  intro s t hrun hs
  rcases running_step_cases hrun hs with ⟨k, rfl⟩ | ⟨i, -, hdec, e⟩
  · exact .inl rfl
  · cases e with
    | fault k => exact .inl rfl
    | halt => exact .inl rfl
    | suspend m1 => exact .inl rfl
    | store v hi hr =>
      have hw : i.width = 4 := by rcases hi with rfl | rfl | rfl | rfl <;> rfl
      exact .inr ⟨i, hdec, .inl (by rw [hw]; rfl)⟩
    | fallThrough hi =>
      have hw : i.width = 3 := by rcases hi with rfl | rfl <;> rfl
      exact .inr ⟨i, hdec, .inl (by rw [hw]; rfl)⟩
    | input hq hr => exact .inr ⟨_, hdec, .inl rfl⟩
    | output m1 v => exact .inr ⟨_, hdec, .inl rfl⟩
    | rebase m1 v => exact .inr ⟨_, hdec, .inl rfl⟩
    | @jump _ m1 m2 c a hi hr =>
      obtain ⟨-, ha⟩ := (resolveSS_eq_ok s m1 m2 c a).1 hr
      exact .inr ⟨i, hdec, .inr ⟨m1, m2, hi, ha⟩⟩

/-- Settles O41: memory is as before, or the instruction at `PC` stored one word at the address
`storeAddr` gives for it. -/
theorem aStepStoresOneWordAtMost : Obligations.AStepStoresOneWordAtMost := by
  intro s t hrun hs
  rcases running_step_mem_cases hrun hs with hm | ⟨i, d, v, hpc, hdec, hd, hm⟩
  · have hsame : SameReads s t := fun a => by rw [hm]
    exact ⟨hm ▸ le_rfl,
      fun j _ _ => ⟨fun d hd => ⟨destMode_ne_none_of_storeAddr hd, fun a _ => hsame a⟩,
        fun _ => hsame⟩,
      fun _ => hsame⟩
  · refine ⟨hm ▸ s.mem.len_le_len_write d v, fun j _ hj => ?_, ?_⟩
    · cases hdec.symm.trans hj
      refine ⟨fun d' hd' => ?_, fun hnone => ?_⟩
      · cases hd.symm.trans hd'
        exact ⟨destMode_ne_none_of_storeAddr hd, fun a ha => by
          rw [hm, Memory.read_write_other _ _ _ _ ha]⟩
      · cases hd.symm.trans hnone
    · rintro (hneg | hbad)
      · exact absurd hpc (not_le.2 hneg)
      · exact absurd hdec (hbad i)

/-! ### Reset and build -/

/-- Settles O48: every address is at or beyond the length 0. -/
theorem resetIsTheEmptyBuild : Obligations.ResetIsTheEmptyBuild :=
  ⟨rfl, fun a => Memory.read_of_len_le _ a (Nat.zero_le a), rfl, rfl, rfl, rfl⟩

/-- Settles O49: the host's move performs the build, whose memory reads as the image. -/
theorem buildGivesTheResetState : Obligations.BuildGivesTheResetState := by
  intro s image rest hcall hreq
  refine ⟨hostBuild image (s.setRequests rest), ?_, rfl, fun a v hv => ?_,
    rfl, rfl, rfl, rfl, rfl, rfl⟩
  · rw [step_of_host s hcall, hostMove_cons hreq]
    rfl
  · calc (Memory.ofImage image).read a = image.getD a Config.unlisted := Memory.read_ofImage image a
      _ = v := by rw [List.getD_eq_getElem?_getD, hv, Option.getD_some]

end Sys2Proof.Machine
end

section
namespace Sys2Proof.Machine

/-! ### Memories that read alike -/

/-- R26: two memories agree on the word at every valid address. -/
def Memory.ReadsAlike (m n : Memory) : Prop :=
  ∀ a : Nat, (a : Int) ≤ Config.addrMax → m.read a = n.read a

/-- R28: the same store into both leaves them reading alike, whether or not either grows. -/
theorem Memory.ReadsAlike.write {m n : Memory} (h : m.ReadsAlike n) (d : Nat) (v : Word) :
    (m.write d v).ReadsAlike (n.write d v) := by
  intro a ha
  simp only [Memory.read_write, h a ha]

/-- R27: `MemRead` looks at valid addresses only. -/
theorem Memory.ReadsAlike.memRead_eq {m n : Memory} (h : m.ReadsAlike n) (a : Int) :
    memRead n a = memRead m a := by
  cases hr : memRead m a with
  | error k => rwa [memRead_eq_error] at hr ⊢
  | ok v =>
    obtain ⟨hlo, hhi, rfl⟩ := (memRead_eq_ok m a v).1 hr
    have ha : (a.toNat : Int) ≤ Config.addrMax := by
      rw [Int.toNat_of_nonneg hlo]
      exact hhi
    exact (memRead_eq_ok n a _).2 ⟨hlo, hhi, h _ ha⟩

/-! ### A state and the same state with another memory

Two states agree exactly when the second is the first with its memory exchanged for one that reads
alike. So each operation is compared on `s` and `s.setMem n`, where all other fields are the same by
computation. -/

theorem agree_setMem {s : State} {n : Memory} (h : s.mem.ReadsAlike n) : Agree s (s.setMem n) :=
  ⟨rfl, rfl, rfl, rfl, rfl, rfl, h⟩

theorem Agree.eq_setMem {s t : State} (h : Agree s t) :
    s.mem.ReadsAlike t.mem ∧ t = s.setMem t.mem := by
  obtain ⟨mem, pc, rb, inQ, outQ, call, requests⟩ := s
  obtain ⟨rfl, rfl, rfl, rfl, rfl, rfl, hread⟩ := h
  exact ⟨hread, rfl⟩

theorem Agree.refl (s : State) : Agree s s := agree_setMem (n := s.mem) fun _ _ => rfl

/-- Both outcomes are next states, and the two agree. -/
def AgreeingNext (o p : Host.Outcome State Fault Refusal) : Prop :=
  ∃ s' t', o = .next s' ∧ p = .next t' ∧ Agree s' t'

theorem AgreeingNext.of_agree {s t : State} (h : Agree s t) : AgreeingNext (.next s) (.next t) :=
  ⟨s, t, rfl, rfl, h⟩

/-- R34: a destination is an address, and no memory is read for it. -/
theorem dst_setMem (s : State) (n : Memory) (m : Mode) (p : Word) :
    dst (s.setMem n) m p = dst s m p := by
  cases m <;> rfl

section
variable {s : State} {n : Memory} (h : s.mem.ReadsAlike n)
include h

/-! ### Operands -/

theorem operandWord_setMem (k : Nat) : operandWord (s.setMem n) k = operandWord s k :=
  h.memRead_eq _

theorem src_setMem (m : Mode) (p : Word) : src (s.setMem n) m p = src s m p := by
  cases m with
  | immediate => rfl
  | pointer => exact h.memRead_eq p.toInt
  | relative => exact h.memRead_eq (s.rb.toInt + p.toInt)

theorem resolveS_setMem (m1 : Mode) : resolveS (s.setMem n) m1 = resolveS s m1 := by
  simp only [resolveS, operandWord_setMem h, src_setMem h]

theorem resolveD_setMem (m1 : Mode) : resolveD (s.setMem n) m1 = resolveD s m1 := by
  simp only [resolveD, operandWord_setMem h, dst_setMem]

theorem resolveSS_setMem (m1 m2 : Mode) : resolveSS (s.setMem n) m1 m2 = resolveSS s m1 m2 := by
  simp only [resolveSS, operandWord_setMem h, src_setMem h]

theorem resolveSSD_setMem (m1 m2 m3 : Mode) :
    resolveSSD (s.setMem n) m1 m2 m3 = resolveSSD s m1 m2 m3 := by
  simp only [resolveSSD, operandWord_setMem h, src_setMem h, dst_setMem]

/-! ### Instructions -/

/-- R73: an execute phase that resolves the same operands in both states, and then makes agreeing
states of them, ends in agreement; so it does where it takes the error of its operands. -/
theorem settle_agree {α : Type} {r r' : Except Fault α} (hr : r' = r) (f g : α → State)
    (hfg : ∀ x, Agree (f x) (g x)) :
    AgreeingNext (settle s (r.bind fun x => .ok (f x)))
      (settle (s.setMem n) (r'.bind fun x => .ok (g x))) := by
  subst hr
  cases r' with
  | error k => exact .of_agree (agree_setMem (s := raise k s) h)
  | ok x => exact .of_agree (hfg x)

theorem storeBinary_agree (f : Word → Word → Word) (m1 m2 m3 : Mode) :
    AgreeingNext (storeBinary f m1 m2 m3 s) (storeBinary f m1 m2 m3 (s.setMem n)) :=
  settle_agree h (resolveSSD_setMem h m1 m2 m3)
    (fun x => (s.setMem (s.mem.write x.2.2 (f x.1 x.2.1))).advance 4) _
    fun x => agree_setMem (h.write x.2.2 (f x.1 x.2.1))

theorem execInp_agree (m1 : Mode) : AgreeingNext (execInp m1 s) (execInp m1 (s.setMem n)) := by
  cases hq : s.inQ with
  | nil =>
    rw [execInp_nil m1 s hq, execInp_nil m1 (s.setMem n) hq]
    exact .of_agree (agree_setMem h)
  | cons v rest =>
    simp only [execInp, State.setMem_inQ, hq]
    exact settle_agree h (resolveD_setMem h m1) _ _ fun d => agree_setMem (h.write d v)

theorem execOut_agree (m1 : Mode) : AgreeingNext (execOut m1 s) (execOut m1 (s.setMem n)) :=
  settle_agree h (resolveS_setMem h m1) _ _ fun _ => agree_setMem h

theorem execArb_agree (m1 : Mode) : AgreeingNext (execArb m1 s) (execArb m1 (s.setMem n)) :=
  settle_agree h (resolveS_setMem h m1) _ _ fun _ => agree_setMem h

theorem jumpWhen_agree (taken : Word → Bool) (m1 m2 : Mode) :
    AgreeingNext (jumpWhen taken m1 m2 s) (jumpWhen taken m1 m2 (s.setMem n)) := by
  refine settle_agree h (resolveSS_setMem h m1 m2)
    (fun x => if taken x.1 then s.setPc x.2 else s.advance 3)
    (fun x => if taken x.1 then (s.setMem n).setPc x.2 else (s.setMem n).advance 3) fun x => ?_
  split <;> exact agree_setMem h

theorem exec_agree (i : Instr) : AgreeingNext (exec i s) (exec i (s.setMem n)) := by
  cases i with
  | add m1 m2 m3 => exact storeBinary_agree h addWord m1 m2 m3
  | mul m1 m2 m3 => exact storeBinary_agree h mulWord m1 m2 m3
  | inp m1 => exact execInp_agree h m1
  | out m1 => exact execOut_agree h m1
  | jt m1 m2 => exact jumpWhen_agree h isTrue m1 m2
  | jf m1 m2 => exact jumpWhen_agree h (fun c => !isTrue c) m1 m2
  | lt m1 m2 m3 => exact storeBinary_agree h ltWord m1 m2 m3
  | eq m1 m2 m3 => exact storeBinary_agree h eqWord m1 m2 m3
  | arb m1 => exact execArb_agree h m1
  | hlt => exact .of_agree (agree_setMem h)

theorem fetchDecode_setMem : fetchDecode (s.setMem n) = fetchDecode s := by
  have hw : fetchWord (s.setMem n) = fetchWord s := h.memRead_eq _
  simp only [fetchDecode, hw]

theorem engineStep_agree : AgreeingNext (engineStep s) (engineStep (s.setMem n)) := by
  cases hf : fetchDecode s with
  | error k =>
    rw [engineStep_of_error s k hf, engineStep_of_error _ k (fetchDecode_setMem h ▸ hf)]
    exact .of_agree (agree_setMem h)
  | ok i =>
    rw [engineStep_of_ok s i hf, engineStep_of_ok _ i (fetchDecode_setMem h ▸ hf)]
    exact exec_agree h i

/-! ### The host's transactions -/

theorem hostPeek_agree (a : Word) : Agree (hostPeek a s) (hostPeek a (s.setMem n)) := by
  simp only [hostPeek, State.setMem_mem, h.memRead_eq]
  cases memRead s.mem a.toInt <;> exact agree_setMem h

theorem hostPoke_agree (a v : Word) : Agree (hostPoke a v s) (hostPoke a v (s.setMem n)) := by
  simp only [hostPoke, memWrite, State.setMem_mem]
  cases validAddr a.toInt with
  | error k => exact agree_setMem h
  | ok d => exact agree_setMem (h.write d v)

theorem perform_agree (r : Transaction) : Agree (perform r s) (perform r (s.setMem n)) := by
  cases r with
  | build image => exact Agree.refl (hostBuild image s)
  | peek a => exact hostPeek_agree h a
  | poke a v => exact hostPoke_agree h a v
  | pushInput v => exact agree_setMem h
  | drainOutput => exact agree_setMem h
  | clearOutput => exact agree_setMem h
  | run => exact agree_setMem h

theorem hostMove_agree : Agree (hostMove s) (hostMove (s.setMem n)) := by
  cases hq : s.requests with
  | nil =>
    rw [hostMove_nil hq, hostMove_nil (s := s.setMem n) hq]
    exact agree_setMem h
  | cons r rest =>
    rw [hostMove_cons hq, hostMove_cons (s := s.setMem n) hq]
    exact perform_agree (s := s.setRequests rest) h r

end

/-! ### Steps and runs -/

/-- R26, one step: agreement is kept by the engine's step and by the host's move. -/
theorem step_agree {s t : State} (h : Agree s t) : AgreeingNext (step s) (step t) := by
  obtain ⟨hread, ht⟩ := h.eq_setMem
  rw [ht]
  by_cases hrun : s.call = .running
  · rw [step_of_running s hrun, step_of_running (s.setMem t.mem) hrun]
    exact engineStep_agree hread
  · rw [step_of_host s hrun, step_of_host (s.setMem t.mem) hrun]
    exact .of_agree (hostMove_agree hread)

/-- Settles O42, by induction on the number of steps: agreement is an invariant of pairs of states. -/
theorem currentLengthIsUnobservable : Obligations.CurrentLengthIsUnobservable := by
  intro s t h n
  induction n generalizing s t with
  | zero => exact ⟨s, t, rfl, rfl, h⟩
  | succ n ih =>
    obtain ⟨s₁, t₁, hs, ht, h₁⟩ := step_agree h
    rw [core_run_succ core n s s₁ hs, core_run_succ core n t t₁ ht]
    exact ih s₁ t₁ h₁

end Sys2Proof.Machine
end

section
namespace Sys2Proof.Machine

/-! ### Lists of stores -/

/-- The stores of a list, made one after another. -/
def Memory.storeAll (m : Memory) (stores : List (Nat × Word)) : Memory :=
  stores.foldl (fun n c => n.write c.1 c.2) m

/-- The last store of a list to an address. -/
def lastStore (stores : List (Nat × Word)) (a : Nat) : Option (Nat × Word) :=
  stores.reverse.find? (fun c => c.1 = a)

theorem Memory.storeAll_concat (m : Memory) (stores : List (Nat × Word)) (c : Nat × Word) :
    m.storeAll (stores ++ [c]) = (m.storeAll stores).write c.1 c.2 := by
  simp [Memory.storeAll]

theorem lastStore_concat (stores : List (Nat × Word)) (c : Nat × Word) (a : Nat) :
    lastStore (stores ++ [c]) a = if c.1 = a then some c else lastStore stores a := by
  by_cases hc : c.1 = a <;> simp [lastStore, hc]

theorem lastStore_eq_none {stores : List (Nat × Word)} {a : Nat} (h : ∀ c ∈ stores, c.1 ≠ a) :
    lastStore stores a = none := by
  simpa [lastStore] using h

/-- R25: after any list of stores every address reads the word last stored there, or as before. -/
theorem Memory.read_storeAll (m : Memory) (stores : List (Nat × Word)) (a : Nat) :
    (m.storeAll stores).read a = (lastStore stores a).elim (m.read a) Prod.snd := by
  induction stores using List.reverseRecOn with
  | nil => rfl
  | append_singleton stores c ih =>
    rw [Memory.storeAll_concat, Memory.read_write, lastStore_concat, ih]
    by_cases hc : c.1 = a
    · simp [hc]
    · simp [hc, Ne.symm hc]

theorem Memory.read_storeAll_of_ne (m : Memory) {stores : List (Nat × Word)} {a : Nat}
    (h : ∀ c ∈ stores, c.1 ≠ a) : (m.storeAll stores).read a = m.read a := by
  rw [Memory.read_storeAll, lastStore_eq_none h, Option.elim_none]

/-- At rising addresses no store is overwritten, so each is the last one to its address. -/
theorem lastStore_of_mem {stores : List (Nat × Word)} {c : Nat × Word}
    (hrise : stores.Pairwise (fun c d => c.1 < d.1)) (hc : c ∈ stores) :
    lastStore stores c.1 = some c := by
  induction stores using List.reverseRecOn with
  | nil => cases hc
  | append_singleton stores e ih =>
    rw [List.pairwise_append] at hrise
    obtain ⟨hstores, -, hlt⟩ := hrise
    rw [lastStore_concat]
    rcases List.mem_append.1 hc with hc | hc
    · have hne : e.1 ≠ c.1 := (hlt c hc e (List.mem_singleton_self e)).ne'
      rw [if_neg hne, ih hstores hc]
    · rw [List.mem_singleton.1 hc, if_pos rfl]

/-- R25 (d): each of several stores at rising addresses reads back. -/
theorem Memory.read_storeAll_of_mem (m : Memory) {stores : List (Nat × Word)} {c : Nat × Word}
    (hrise : stores.Pairwise (fun c d => c.1 < d.1)) (hc : c ∈ stores) :
    (m.storeAll stores).read c.1 = c.2 := by
  rw [Memory.read_storeAll, lastStore_of_mem hrise hc, Option.elim_some]

/-- R28: after a store the current length covers its address. -/
theorem Memory.lt_len_write (m : Memory) (a : Nat) (v : Word) : a < (m.write a v).len := by
  rw [Memory.len_write]
  split <;> omega

/-- Settles O36: (a) to (c) are the reading laws of one store, and (d) and the last clause those of a
list of stores. -/
theorem memoryHoldsTheLastStores : Obligations.MemoryHoldsTheLastStores := by
  refine ⟨Memory.read_of_len_le, fun m a b v ha => ⟨fun hb hba => ?_, ?_, ?_⟩,
    fun m a b v ha hb => ⟨?_, ?_⟩, fun m stores hrise hlen => ⟨fun a ha => ?_, fun a ha hne => ?_,
      fun c hc => ?_⟩, fun image stores a => ?_⟩
  · rw [Memory.read_write_other m a b v hba.ne]
    exact m.read_of_len_le b hb
  · exact m.read_write_same a v
  · exact m.lt_len_write a v
  · exact m.read_write_other a b v (by omega)
  · exact hb.trans_le (m.len_le_len_write a v)
  · exact m.read_storeAll_of_ne fun c hc => (ha.trans_le (hlen c hc)).ne'
  · exact (m.read_storeAll_of_ne hne).trans (m.read_of_len_le a ha)
  · exact m.read_storeAll_of_mem hrise hc
  · have hread := (Memory.ofImage image).read_storeAll stores a
    rw [Memory.read_ofImage] at hread
    refine hread.trans ?_
    unfold lastStore
    cases stores.reverse.find? (fun c => c.1 = a) <;> rfl

end Sys2Proof.Machine
end

section
namespace Sys2Proof.Machine

/-! ### Canonical memories -/

/-- The canonical form lists exactly the words that differ from an unlisted one. -/
theorem mem_iff_lookupCell {cells : List Cell} (hrise : cells.Pairwise (fun c d => c.1 < d.1))
    (hlisted : ∀ c ∈ cells, c.2 ≠ Config.unlisted) (c : Cell) :
    c ∈ cells ↔ c.2 ≠ Config.unlisted ∧ lookupCell cells c.1 = c.2 := by
  induction cells with
  | nil => simp [lookupCell, eq_comm]
  | cons d rest ih =>
    obtain ⟨hlt, hrest⟩ := List.pairwise_cons.1 hrise
    obtain ⟨hd, hlrest⟩ := List.forall_mem_cons.1 hlisted
    have ih := ih hrest hlrest
    rw [List.mem_cons]
    by_cases hc : d.1 = c.1
    · have hnot : c ∉ rest := fun hm => (hlt c hm).ne hc
      have hlook : lookupCell (d :: rest) c.1 = d.2 := by simp [lookupCell, hc]
      rw [hlook, or_iff_left hnot, Prod.ext_iff]
      constructor
      · rintro ⟨-, h2⟩
        exact ⟨h2 ▸ hd, h2.symm⟩
      · rintro ⟨-, h2⟩
        exact ⟨hc.symm, h2.symm⟩
    · have hne : c ≠ d := fun h => hc (h ▸ rfl)
      have hlook : lookupCell (d :: rest) c.1 = lookupCell rest c.1 := by simp [lookupCell, hc]
      rw [hlook, or_iff_right hne, ih]

/-- The canonical form lists no cell that the current length hides. -/
theorem Memory.lookupCell_of_wf {m : Memory} (h : m.wf) (a : Nat) :
    lookupCell m.cells a = m.read a := by
  obtain ⟨-, -, hbelow⟩ := h
  unfold Memory.read
  split
  · rfl
  case isFalse ha => exact lookupCell_of_absent _ _ fun c hc hca => ha (hca ▸ hbelow c hc)

/-- R27: the cells of a canonical memory are determined by what its addresses read as. -/
theorem Memory.mem_cells_iff {m : Memory} (h : m.wf) (c : Cell) :
    c ∈ m.cells ↔ c.2 ≠ Config.unlisted ∧ m.read c.1 = c.2 := by
  have hlook := Memory.lookupCell_of_wf h c.1
  obtain ⟨hrise, hlisted, -⟩ := h
  rw [mem_iff_lookupCell hrise hlisted, hlook]

/-- Settles O47: two rising lists with the same members are equal. -/
theorem canonicalMemoriesThatReadAlikeAreEqual :
    Obligations.CanonicalMemoriesThatReadAlikeAreEqual := by
  intro m n hm hn hlen hread
  have hmem : ∀ c, c ∈ m.cells ↔ c ∈ n.cells := fun c => by
    rw [Memory.mem_cells_iff hm, Memory.mem_cells_iff hn, hread]
  have hirrefl : Std.Irrefl fun c d : Cell => c.1 < d.1 := ⟨fun c => lt_irrefl c.1⟩
  have hcells : m.cells = n.cells := List.Pairwise.eq_of_mem_iff hm.1 hn.1 hmem
  exact congrArg₂ Memory.mk hcells hlen

end Sys2Proof.Machine
end

section
namespace Sys2Proof.Machine

/-! ### A store over the next instruction -/

/-- R60: ADD, MUL, LT and EQ are one shape with four words stored. -/
theorem exists_exec_eq_storeBinary {op : Mode → Mode → Mode → Instr}
    (hop : op = Instr.add ∨ op = Instr.mul ∨ op = Instr.lt ∨ op = Instr.eq) :
    ∃ f, ∀ m1 m2 m3 s, exec (op m1 m2 m3) s = storeBinary f m1 m2 m3 s := by
  rcases hop with rfl | rfl | rfl | rfl
  · exact ⟨addWord, fun _ _ _ _ => rfl⟩
  · exact ⟨mulWord, fun _ _ _ _ => rfl⟩
  · exact ⟨ltWord, fun _ _ _ _ => rfl⟩
  · exact ⟨eqWord, fun _ _ _ _ => rfl⟩

/-- R60: a four-word instruction that goes on has advanced `PC` by 4, whatever it stored. -/
theorem pc_of_storeBinary {f : Word → Word → Word} {m1 m2 m3 : Mode} {s t : State}
    (h : storeBinary f m1 m2 m3 s = .next t) (hrun : t.call = .running) :
    t.pc = wrap64 (s.pc.toInt + 4) := by
  rcases storeBinary_cases f m1 m2 m3 s t h with ⟨a, b, d, -, rfl⟩ | ⟨k, -, rfl⟩
  · rfl
  · cases hrun

/-- R73, R39: the step of a run at a valid `PC` executes what the word there decodes to. -/
theorem step_of_decode {s : State} {i : Instr} (hrun : s.call = .running) (hpc : 0 ≤ s.pc.toInt)
    (hdec : decode (s.mem.read s.pc.toNat) = .ok i) : step s = exec i s := by
  rw [step_of_running s hrun, engineStep_of_ok s i ((fetchDecode_eq_ok s i).2 ⟨hpc, hdec⟩)]

/-- Settles O17: `PC` has advanced to the address stored to, and the fetch reads the memory left by the
store. -/
theorem storeIntoTheNextInstructionIsFetched :
    Obligations.StoreIntoTheNextInstructionIsFetched := by
  intro op m1 m2 m3 s t d j hop _ hexec hrun _ hmax hd hdec
  obtain ⟨f, hf⟩ := exists_exec_eq_storeBinary hop
  rw [hf] at hexec
  have hpc : t.pc.toInt = d := by
    unfold Config.addrMax at hmax
    rw [pc_of_storeBinary hexec hrun, hd, toInt_wrap64_of_mem_range (by omega) (by omega)]
  have hnat : t.pc.toNat = d := by
    rw [← toNat_of_nonneg t.pc (by omega), hpc, Int.toNat_natCast]
  exact step_of_decode hrun (by omega) (by rw [hnat]; exact hdec)

end Sys2Proof.Machine
end

section
namespace Sys2Proof

/-! ### The digits of an instruction word -/

theorem dig_succ (n k : Nat) : dig n (k + 1) = dig (n / 10) k := by
  rw [dig, dig, Nat.div_div_eq_div_mul, pow_succ']

/-- R43: a digit depends on no digit above it. -/
theorem dig_eq_of_mod_pow_eq {n n' c k : Nat} (h : n % 10 ^ c = n' % 10 ^ c) (hk : k < c) :
    dig n k = dig n' k := by
  have hdig (x : Nat) : dig x k = x % 10 ^ (k + 1) / 10 ^ k := by
    rw [dig, pow_succ, Nat.mod_mul_right_div_self]
  have hdvd : 10 ^ (k + 1) ∣ 10 ^ c := pow_dvd_pow 10 hk
  rw [hdig, hdig, ← Nat.mod_mod_of_dvd n hdvd, ← Nat.mod_mod_of_dvd n' hdvd, h]

/-- A property of every position of a list, said of its head and of its tail. -/
theorem forall_getElem?_cons {α : Type} (P : Nat → α → Prop) (a : α) (l : List α) :
    (∀ k b, (a :: l)[k]? = some b → P k b) ↔ P 0 a ∧ ∀ k b, l[k]? = some b → P (k + 1) b := by
  rw [← Nat.and_forall_add_one]
  simp

/-- R56: the lowest digits are those of a list of modes exactly when each of them is. -/
theorem mod_pow_eq_modeDigits_iff (ms : List Mode) (n : Nat) :
    n % 10 ^ ms.length = modeDigits ms ↔ ∀ k m, ms[k]? = some m → dig n k = m.digit := by
  induction ms generalizing n with
  | nil => simp [modeDigits, Nat.mod_one]
  | cons m rest ih =>
    have hm := m.digit_le
    have hsplit : n % 10 ^ (m :: rest).length = n % 10 + 10 * (n / 10 % 10 ^ rest.length) := by
      rw [List.length_cons, pow_succ', Nat.mod_mul]
    have hzero : dig n 0 = n % 10 := by rw [dig, pow_zero, Nat.div_one]
    simp only [forall_getElem?_cons, hzero, dig_succ, ← ih, hsplit, modeDigits]
    omega

/-- R42 to R44: the two lowest digits of `n` are the code of `i`, and the digits of the used positions
its modes. -/
def Spells (n : Nat) (i : Instr) : Prop :=
  n % 100 = i.code ∧ ∀ k m, i.modes[k]? = some m → dig n (k + 2) = m.digit

/-- R45: the assigned codes. -/
theorem Instr.code_mem (i : Instr) : (1 ≤ i.code ∧ i.code ≤ 9) ∨ i.code = 99 := by
  cases i <;> simp [Instr.code]

/-- R56: to spell an instruction is to have its encoding as the lowest `n + 2` digits. -/
theorem spells_iff_mod_eq_encodeNat (n : Nat) (i : Instr) :
    Spells n i ↔ n % 10 ^ (i.operandCount + 2) = i.encodeNat := by
  have hcode := i.code_mem
  have hsplit : n % 10 ^ (i.operandCount + 2) =
      n % 100 + 100 * (n / 100 % 10 ^ i.modes.length) := by
    rw [Instr.operandCount, pow_add, mul_comm]
    exact Nat.mod_mul
  have hdig (k : Nat) : dig n (k + 2) = dig (n / 100) k := by
    rw [dig_succ, dig_succ, Nat.div_div_eq_div_mul]
  rw [Spells, hsplit, Instr.encodeNat]
  simp only [hdig, ← mod_pow_eq_modeDigits_iff]
  omega

/-! ### Everything the decoder can answer, and when -/

/-- R45: the operand count that goes with a code. -/
def operandCountOfCode : Nat → Nat
  | 3 | 4 | 9 => 1
  | 5 | 6 => 2
  | 99 => 0
  | _ => 3

theorem Instr.operandCount_eq (i : Instr) : i.operandCount = operandCountOfCode i.code := by
  cases i <;> rfl

theorem Instr.operandCount_eq_of_code_eq {i j : Instr} (h : i.code = j.code) :
    i.operandCount = j.operandCount := by
  rw [i.operandCount_eq, j.operandCount_eq, h]

/-- R48: the code of no operation. -/
abbrev UnknownCode (n : Nat) : Prop := n % 100 = 0 ∨ (10 ≤ n % 100 ∧ n % 100 ≤ 98)

/-- R50: the code of an operation, and in a position it uses a digit that is no mode's. -/
abbrev HasBadMode (n : Nat) : Prop :=
  ∃ i : Instr, n % 100 = i.code ∧ ∃ k : Nat, 1 ≤ k ∧ k ≤ i.operandCount ∧ 3 ≤ dig n (k + 1)

theorem not_unknownCode_of_code {n : Nat} {i : Instr} (h : n % 100 = i.code) : ¬ UnknownCode n := by
  have := i.code_mem
  unfold UnknownCode
  omega

theorem HasBadMode.not_unknownCode {n : Nat} (h : HasBadMode n) : ¬ UnknownCode n := by
  obtain ⟨i, hcode, -⟩ := h
  exact not_unknownCode_of_code hcode

/-- R50: a number that spells an instruction has a mode's digit in every position its code uses. -/
theorem Spells.not_hasBadMode {n : Nat} {i : Instr} (h : Spells n i) : ¬ HasBadMode n := by
  obtain ⟨hcode, hmodes⟩ := h
  rintro ⟨j, hj, k, hk, hkj, hbad⟩
  obtain ⟨p, rfl⟩ := Nat.exists_eq_add_of_le' hk
  rw [Instr.operandCount_eq_of_code_eq (hj.symm.trans hcode)] at hkj
  have hdig : dig n (p + 1 + 1) = i.modes[p].digit := hmodes p _ (List.getElem?_eq_getElem hkj)
  have := i.modes[p].digit_le
  omega

/-- R44, R48, R50: the numbers each answer of the decoder is for. -/
def DecodesTo (n : Nat) : Except DecodeError Instr → Prop
  | .ok i => Spells n i
  | .error .invalidMode => HasBadMode n
  | .error .invalidOpcode => UnknownCode n

theorem decodesTo_decode1 {n : Nat} {op : Mode → Instr}
    (hop : ∀ m1, n % 100 = (op m1).code ∧ (op m1).modes = [m1]) :
    DecodesTo n (decode1 n op) := by
  rcases decode1_cases n op _ rfl with ⟨m1, h1, hr⟩ | ⟨hbad, hr⟩ <;> rw [hr]
  · obtain ⟨hcode, hmodes⟩ := hop m1
    exact ⟨hcode, by simp [hmodes, forall_getElem?_cons, h1]⟩
  · obtain ⟨hcode, hmodes⟩ := hop .pointer
    have hn : (op .pointer).operandCount = 1 := congrArg List.length hmodes
    exact ⟨_, hcode, 1, by omega, by omega, hbad⟩

theorem decodesTo_decode2 {n : Nat} {op : Mode → Mode → Instr}
    (hop : ∀ m1 m2, n % 100 = (op m1 m2).code ∧ (op m1 m2).modes = [m1, m2]) :
    DecodesTo n (decode2 n op) := by
  rcases decode2_cases n op _ rfl with ⟨m1, m2, h1, h2, hr⟩ | ⟨hbad, hr⟩ <;> rw [hr]
  · obtain ⟨hcode, hmodes⟩ := hop m1 m2
    exact ⟨hcode, by simp [hmodes, forall_getElem?_cons, h1, h2]⟩
  · obtain ⟨hcode, hmodes⟩ := hop .pointer .pointer
    have hn : (op .pointer .pointer).operandCount = 2 := congrArg List.length hmodes
    rcases hbad with h | h
    · exact ⟨_, hcode, 1, by omega, by omega, h⟩
    · exact ⟨_, hcode, 2, by omega, by omega, h⟩

theorem decodesTo_decode3 {n : Nat} {op : Mode → Mode → Mode → Instr}
    (hop : ∀ m1 m2 m3, n % 100 = (op m1 m2 m3).code ∧ (op m1 m2 m3).modes = [m1, m2, m3]) :
    DecodesTo n (decode3 n op) := by
  rcases decode3_cases n op _ rfl with ⟨m1, m2, m3, h1, h2, h3, hr⟩ | ⟨hbad, hr⟩ <;> rw [hr]
  · obtain ⟨hcode, hmodes⟩ := hop m1 m2 m3
    exact ⟨hcode, by simp [hmodes, forall_getElem?_cons, h1, h2, h3]⟩
  · obtain ⟨hcode, hmodes⟩ := hop .pointer .pointer .pointer
    have hn : (op .pointer .pointer .pointer).operandCount = 3 := congrArg List.length hmodes
    rcases hbad with h | h | h
    · exact ⟨_, hcode, 1, by omega, by omega, h⟩
    · exact ⟨_, hcode, 2, by omega, by omega, h⟩
    · exact ⟨_, hcode, 3, by omega, by omega, h⟩

theorem decodesTo_decodeNat (n : Nat) : DecodesTo n (decodeNat n) := by
  rcases decodeNat_cases n with ⟨h, hd⟩ | ⟨h, hd⟩ | ⟨h, hd⟩ | ⟨h, hd⟩ | ⟨h, hd⟩ | ⟨h, hd⟩ |
    ⟨h, hd⟩ | ⟨h, hd⟩ | ⟨h, hd⟩ | ⟨h, hd⟩ | ⟨h, hd⟩ <;> rw [hd]
  · exact decodesTo_decode3 fun _ _ _ => ⟨h, rfl⟩
  · exact decodesTo_decode3 fun _ _ _ => ⟨h, rfl⟩
  · exact decodesTo_decode1 fun _ => ⟨h, rfl⟩
  · exact decodesTo_decode1 fun _ => ⟨h, rfl⟩
  · exact decodesTo_decode2 fun _ _ => ⟨h, rfl⟩
  · exact decodesTo_decode2 fun _ _ => ⟨h, rfl⟩
  · exact decodesTo_decode3 fun _ _ _ => ⟨h, rfl⟩
  · exact decodesTo_decode3 fun _ _ _ => ⟨h, rfl⟩
  · exact decodesTo_decode1 fun _ => ⟨h, rfl⟩
  · exact ⟨h, by simp [Instr.modes]⟩
  · exact h

theorem decode1_of_modeAt {n : Nat} {op : Mode → Instr} {m1 : Mode} (h1 : modeAt n 1 = .ok m1) :
    decode1 n op = .ok (op m1) := by
  rw [decode1, h1]; rfl

theorem decode2_of_modeAt {n : Nat} {op : Mode → Mode → Instr} {m1 m2 : Mode}
    (h1 : modeAt n 1 = .ok m1) (h2 : modeAt n 2 = .ok m2) : decode2 n op = .ok (op m1 m2) := by
  rw [decode2, h1, h2]; rfl

theorem decode3_of_modeAt {n : Nat} {op : Mode → Mode → Mode → Instr} {m1 m2 m3 : Mode}
    (h1 : modeAt n 1 = .ok m1) (h2 : modeAt n 2 = .ok m2) (h3 : modeAt n 3 = .ok m3) :
    decode3 n op = .ok (op m1 m2 m3) := by
  rw [decode3, h1, h2, h3]; rfl

/-- R44: what spells an instruction decodes to it, one arm for each instruction. -/
theorem decodeNat_of_spells {n : Nat} {i : Instr} (h : Spells n i) : decodeNat n = .ok i := by
  obtain ⟨hcode, hdig⟩ := h
  have hm (k : Nat) (m : Mode) (hk : i.modes[k]? = some m) : modeAt n (k + 1) = .ok m :=
    (modeAt_eq_ok n (k + 1) m).2 (hdig k m hk)
  rw [decodeNat, hcode]
  cases i with
  | add m1 m2 m3 => exact decode3_of_modeAt (hm 0 m1 rfl) (hm 1 m2 rfl) (hm 2 m3 rfl)
  | mul m1 m2 m3 => exact decode3_of_modeAt (hm 0 m1 rfl) (hm 1 m2 rfl) (hm 2 m3 rfl)
  | inp m1 => exact decode1_of_modeAt (hm 0 m1 rfl)
  | out m1 => exact decode1_of_modeAt (hm 0 m1 rfl)
  | jt m1 m2 => exact decode2_of_modeAt (hm 0 m1 rfl) (hm 1 m2 rfl)
  | jf m1 m2 => exact decode2_of_modeAt (hm 0 m1 rfl) (hm 1 m2 rfl)
  | lt m1 m2 m3 => exact decode3_of_modeAt (hm 0 m1 rfl) (hm 1 m2 rfl) (hm 2 m3 rfl)
  | eq m1 m2 m3 => exact decode3_of_modeAt (hm 0 m1 rfl) (hm 1 m2 rfl) (hm 2 m3 rfl)
  | arb m1 => exact decode1_of_modeAt (hm 0 m1 rfl)
  | hlt => rfl

/-- R44: the three answers exclude each other, so each is given for exactly its numbers. -/
theorem decodeNat_eq_iff (n : Nat) (r : Except DecodeError Instr) :
    decodeNat n = r ↔ DecodesTo n r := by
  constructor
  · rintro rfl
    exact decodesTo_decodeNat n
  · intro hr
    have ha := decodesTo_decodeNat n
    match r, hr with
    | .ok i, hs => exact decodeNat_of_spells hs
    | .error .invalidMode, hbad =>
      match decodeNat n, ha with
      | .ok i, hs => exact absurd hbad (Spells.not_hasBadMode hs)
      | .error .invalidMode, _ => rfl
      | .error .invalidOpcode, hu => exact absurd hu (HasBadMode.not_unknownCode hbad)
    | .error .invalidOpcode, hu =>
      match decodeNat n, ha with
      | .ok i, hs => exact absurd hu (not_unknownCode_of_code hs.1)
      | .error .invalidMode, hbad => exact absurd hu (HasBadMode.not_unknownCode hbad)
      | .error .invalidOpcode, _ => rfl

/-! ### The decoder on words -/

theorem decode_of_neg {w : Word} (h : w.toInt < 0) : decode w = .error .invalidOpcode := if_pos h

theorem decode_of_nonneg {w : Word} (h : 0 ≤ w.toInt) : decode w = decodeNat w.toNat :=
  if_neg (not_lt.2 h)

theorem decode_eq_ok_iff (w : Word) (i : Instr) :
    decode w = .ok i ↔ 0 ≤ w.toInt ∧ Spells w.toNat i := by
  rcases lt_or_ge w.toInt 0 with h | h
  · simp [decode_of_neg h, h]
  · simp [decode_of_nonneg h, decodeNat_eq_iff, DecodesTo, h]

/-- R48, R49. -/
theorem decode_eq_invalidOpcode_iff (w : Word) :
    decode w = .error .invalidOpcode ↔ w.toInt < 0 ∨ UnknownCode w.toNat := by
  rcases lt_or_ge w.toInt 0 with h | h
  · simp [decode_of_neg h, h]
  · simp [decode_of_nonneg h, decodeNat_eq_iff, DecodesTo, h]

/-- R50. -/
theorem decode_eq_invalidMode_iff (w : Word) :
    decode w = .error .invalidMode ↔ 0 ≤ w.toInt ∧ HasBadMode w.toNat := by
  rcases lt_or_ge w.toInt 0 with h | h
  · simp [decode_of_neg h, h]
  · simp [decode_of_nonneg h, decodeNat_eq_iff, DecodesTo, h]

/-- Settles O2: a non-negative word decodes to what its digits spell, and to spell an instruction is to
end in its encoding. -/
theorem decodeInvertsEncode : Obligations.DecodeInvertsEncode := by
  intro i w
  rw [decode_eq_ok_iff, spells_iff_mod_eq_encodeNat]

/-- Settles O4: the two rejections, each with exactly its words. -/
theorem decodeRejectsByName : Obligations.DecodeRejectsByName :=
  ⟨decode_eq_invalidOpcode_iff, decode_eq_invalidMode_iff⟩

/-! ### Digits above the used positions -/

/-- R51: an answer of the decoder for a number of known code is its answer for every number with the
same digits up to the last used position. -/
theorem DecodesTo.of_mod_eq {n n' : Nat} {i : Instr} {r : Except DecodeError Instr}
    (hr : DecodesTo n r) (hcode : n % 100 = i.code)
    (hmod : n % 10 ^ (i.operandCount + 2) = n' % 10 ^ (i.operandCount + 2)) : DecodesTo n' r := by
  have hcode' : n' % 100 = n % 100 := by
    have hdvd : 100 ∣ 10 ^ (i.operandCount + 2) := pow_dvd_pow 10 (Nat.le_add_left 2 _)
    rw [← Nat.mod_mod_of_dvd n' hdvd, ← hmod, Nat.mod_mod_of_dvd n hdvd]
  have hcount (j : Instr) (hj : n % 100 = j.code) : j.operandCount = i.operandCount :=
    Instr.operandCount_eq_of_code_eq (hj.symm.trans hcode)
  match r, hr with
  | .ok j, hs =>
    have hj := (spells_iff_mod_eq_encodeNat n j).1 hs
    rw [hcount j hs.1, hmod] at hj
    exact (spells_iff_mod_eq_encodeNat n' j).2 (by rw [hcount j hs.1, hj])
  | .error .invalidMode, ⟨j, hj, k, hk, hkj, hbad⟩ =>
    refine ⟨j, hcode'.trans hj, k, hk, hkj, ?_⟩
    have := hcount j hj
    rwa [← dig_eq_of_mod_pow_eq hmod (by omega)]
  | .error .invalidOpcode, hu => exact absurd hu (not_unknownCode_of_code hcode)

/-- Settles O5: the decoder's answer for one word is an answer for the other, and there is only one. -/
theorem surplusDigitsHaveNoEffect : Obligations.SurplusDigitsHaveNoEffect := by
  intro i w w' hw hw' hcode hmod
  rw [decode_of_nonneg hw, decode_of_nonneg hw']
  exact ((decodeNat_eq_iff _ _).2 ((decodesTo_decodeNat w.toNat).of_mod_eq hcode hmod)).symm

/-! ### The encoding as a word -/

theorem Instr.operandCount_le (i : Instr) : i.operandCount ≤ 3 := by
  cases i <;> simp [Instr.operandCount, Instr.modes]

theorem Instr.encodeNat_lt (i : Instr) : i.encodeNat < 10 ^ (i.operandCount + 2) := by
  have := i.code_mem
  exact (Laws.EncodeDigits.of_code i (by omega)).2

theorem Instr.encodeNat_lt_pow_five (i : Instr) : i.encodeNat < 10 ^ 5 := by
  have := i.operandCount_le
  exact i.encodeNat_lt.trans_le (Nat.pow_le_pow_right (by decide) (by omega))

theorem toNat_encode (i : Instr) : (encode i).toNat = i.encodeNat :=
  Nat.mod_eq_of_lt (i.encodeNat_lt_pow_five.trans (by decide))

/-- R56: an encoding is far below the sign bit. -/
theorem toInt_encode_nonneg (i : Instr) : 0 ≤ (encode i).toInt := by
  have := i.encodeNat_lt_pow_five
  rw [BitVec.toInt_eq_toNat_of_lt (by rw [toNat_encode]; omega)]
  omega

theorem decode_encode (i : Instr) : decode (encode i) = .ok i := by
  rw [decodeInvertsEncode, toNat_encode]
  exact ⟨toInt_encode_nonneg i, Nat.mod_eq_of_lt i.encodeNat_lt⟩

end Sys2Proof
end

section
namespace Sys2Proof.Machine

/-! ### An instruction read back from memory -/

/-- Settles O3: the word at `PC` is the encoding, and operand position `k` is the word `k` behind it. -/
theorem assembledInstructionIsReadBack : Obligations.AssembledInstructionIsReadBack := by
  intro i ops s hlen hpc hmax hread
  constructor
  · have hword : s.mem.read s.pc.toNat = encode i := hread 0 (encode i) rfl
    exact (fetchDecode_eq_ok s i).2 ⟨hpc, by rw [hword, decode_encode]⟩
  · intro k p hk
    have hlt : k < ops.length := (List.getElem?_eq_some_iff.1 hk).1
    have hword : s.mem.read (s.pc.toNat + (k + 1)) = p := hread (k + 1) p hk
    have haddr : operandAddress s (k + 1) = (s.pc.toNat + (k + 1) : Nat) := by
      rw [← toNat_of_nonneg s.pc hpc, Nat.cast_add, Int.toNat_of_nonneg hpc]
    have hvalid : ValidAddress (operandAddress s (k + 1)) := by
      rw [← toNat_of_nonneg s.pc hpc] at haddr
      unfold Config.addrMax at hmax
      omega
    refine (operandWord_eq_ok s (k + 1) p).2 ⟨hvalid, ?_⟩
    rw [operandAt, haddr, Int.toNat_natCast, hword]

/-! ### Errors of the fetch and of the decoder -/

/-- R48 to R50: in a run at a valid `PC` a rejection by the decoder is taken, whatever else the state
holds. -/
theorem returns_of_decode_error {s : State} {e : DecodeError} (hrun : s.call = .running)
    (hpc : 0 ≤ s.pc.toInt) (hdec : decode (s.mem.read s.pc.toNat) = .error e) :
    Returns (step s) s (.fatal (faultOfDecode e)) := by
  rw [Returns, step_of_running s hrun,
    engineStep_of_error s _ (fetchDecode_of_decode_error s e hpc hdec)]
  rfl

/-- R100 (a): in a run a negative `PC` is InvalidAddress. -/
theorem returns_of_pc_neg {s : State} (hrun : s.call = .running) (hpc : s.pc.toInt < 0) :
    Returns (step s) s (.fatal .invalidAddress) := by
  have hf : fetchDecode s = .error .invalidAddress := by
    rw [fetchDecode, fetchWord_of_neg s hpc]
  rw [Returns, step_of_running s hrun, engineStep_of_error s _ hf]
  rfl

/-- Settles O6: the word 0 beyond the current length is one of the unknown codes. -/
theorem unknownOpcodeIsInvalidOpcode : Obligations.UnknownOpcodeIsInvalidOpcode := by
  constructor
  · intro s hrun hpc _ hcode
    exact returns_of_decode_error hrun hpc ((decode_eq_invalidOpcode_iff _).2 (.inr hcode))
  · intro s hrun hpc hlen
    have hzero : s.mem.read s.pc.toNat = 0 := Memory.read_of_len_le s.mem _ hlen
    have hdec : decode (s.mem.read s.pc.toNat) = .error .invalidOpcode := by
      rw [hzero, decode_eq_invalidOpcode_iff]
      decide
    exact ⟨hzero, returns_of_decode_error hrun hpc hdec⟩

/-- Settles O7: the decoder rejects the word before the step looks at any operand. -/
theorem illegalModeDigitIsInvalidMode : Obligations.IllegalModeDigitIsInvalidMode := by
  intro s i k hrun hpc hw hcode hk hki hbad
  exact returns_of_decode_error hrun hpc
    ((decode_eq_invalidMode_iff _).2 ⟨hw, i, hcode, k, hk, hki, hbad⟩)

/-- Settles O8: the decoder rejects a negative word, and the fetch a negative `PC`. -/
theorem negativeWordAndNegativePc : Obligations.NegativeWordAndNegativePc :=
  ⟨fun _ hrun hpc hw => returns_of_decode_error hrun hpc (decode_of_neg hw),
    fun _ hrun hpc => returns_of_pc_neg hrun hpc⟩

/-! ### Where DestinationImmediate comes from -/

/-- R101: of the format SSD errors, DestinationImmediate is the destination's alone. -/
theorem eq_immediate_of_resolveSSD {s : State} {m1 m2 m3 : Mode}
    (h : resolveSSD s m1 m2 m3 = .error .destinationImmediate) : m3 = .immediate := by
  by_cases h3 : ValidAddress (operandAddress s 3)
  · rcases (resolveSSD_eq_error s m1 m2 m3 _ h3).1 h with hss | ⟨-, hd⟩
    · cases ((resolveSS_eq_error s m1 m2 _).1 hss).1
    · rcases (dst_eq_error s 3 m3 _ h3).1 hd with ⟨-, hm⟩ | ⟨hk, -⟩
      · exact hm
      · cases hk
  · rw [resolveSSD_no_word3 s m1 m2 m3 h3] at h
    cases h

theorem eq_immediate_of_resolveD {s : State} {m1 : Mode}
    (h : resolveD s m1 = .error .destinationImmediate) : m1 = .immediate := by
  rcases (resolveD_eq_error s m1 _).1 h with ⟨hk, -⟩ | ⟨-, -, hm⟩
  · cases hk
  · exact hm

/-- R101: the run has ended in DestinationImmediate. -/
abbrev EndedInDestinationImmediate (t : State) : Prop :=
  t.call = .returned (.outcome (.fatal .destinationImmediate))

section
variable {s t : State} {m1 m2 m3 : Mode}

theorem eq_immediate_of_storeBinary {f : Word → Word → Word} (hrun : s.call = .running)
    (h : storeBinary f m1 m2 m3 s = .next t) (ht : EndedInDestinationImmediate t) :
    m3 = .immediate := by
  rcases storeBinary_cases f m1 m2 m3 s t h with ⟨a, b, d, -, rfl⟩ | ⟨k, hr, rfl⟩
  · cases hrun.symm.trans ht
  · cases ht
    exact eq_immediate_of_resolveSSD hr

theorem eq_immediate_of_execInp (hrun : s.call = .running) (h : execInp m1 s = .next t)
    (ht : EndedInDestinationImmediate t) : m1 = .immediate := by
  rcases execInp_cases m1 s t h with ⟨-, rfl⟩ | ⟨v, rest, d, -, -, rfl⟩ | ⟨v, rest, k, -, hr, rfl⟩
  · cases ht
  · cases hrun.symm.trans ht
  · cases ht
    exact eq_immediate_of_resolveD hr

theorem execOut_not_destinationImmediate (hrun : s.call = .running)
    (h : execOut m1 s = .next t) : ¬ EndedInDestinationImmediate t := by
  intro ht
  rcases execOut_cases m1 s t h with ⟨v, -, rfl⟩ | ⟨k, hr, rfl⟩
  · cases hrun.symm.trans ht
  · obtain ⟨rfl, -⟩ := (resolveS_eq_error s m1 k).1 hr
    cases ht

theorem execArb_not_destinationImmediate (hrun : s.call = .running)
    (h : execArb m1 s = .next t) : ¬ EndedInDestinationImmediate t := by
  intro ht
  rcases execArb_cases m1 s t h with ⟨v, -, rfl⟩ | ⟨k, hr, rfl⟩
  · cases hrun.symm.trans ht
  · obtain ⟨rfl, -⟩ := (resolveS_eq_error s m1 k).1 hr
    cases ht

theorem jumpWhen_not_destinationImmediate {taken : Word → Bool} (hrun : s.call = .running)
    (h : jumpWhen taken m1 m2 s = .next t) : ¬ EndedInDestinationImmediate t := by
  intro ht
  rcases jumpWhen_cases taken m1 m2 s t h with ⟨c, a, -, rfl⟩ | ⟨k, hr, rfl⟩
  · split at ht
    · cases hrun.symm.trans ht
    · cases hrun.symm.trans ht
  · obtain ⟨rfl, -⟩ := (resolveSS_eq_error s m1 m2 k).1 hr
    cases ht

/-- R101: only an instruction with an Immediate destination ends a run in DestinationImmediate. -/
theorem destMode_eq_immediate_of_exec {i : Instr} (hrun : s.call = .running)
    (h : exec i s = .next t) (ht : EndedInDestinationImmediate t) :
    i.destMode = some .immediate := by
  cases i with
  | add m1 m2 m3 => exact congrArg some (eq_immediate_of_storeBinary hrun h ht)
  | mul m1 m2 m3 => exact congrArg some (eq_immediate_of_storeBinary hrun h ht)
  | inp m1 => exact congrArg some (eq_immediate_of_execInp hrun h ht)
  | out m1 => exact absurd ht (execOut_not_destinationImmediate hrun h)
  | jt m1 m2 => exact absurd ht (jumpWhen_not_destinationImmediate hrun h)
  | jf m1 m2 =>
    exact absurd ht (jumpWhen_not_destinationImmediate (taken := fun c => !isTrue c) hrun h)
  | lt m1 m2 m3 => exact congrArg some (eq_immediate_of_storeBinary hrun h ht)
  | eq m1 m2 m3 => exact congrArg some (eq_immediate_of_storeBinary hrun h ht)
  | arb m1 => exact absurd ht (execArb_not_destinationImmediate hrun h)
  | hlt =>
    cases h
    cases ht

end

/-- Settles O9: an Immediate destination is what `wellFormed` excludes. -/
theorem wellFormedNeverDestinationImmediate :
    Obligations.WellFormedNeverDestinationImmediate := by
  intro i s t hwf hrun h ht
  rw [Instr.wellFormed, destMode_eq_immediate_of_exec hrun h ht] at hwf
  cases hwf

end Sys2Proof.Machine
end

section
namespace Sys2Proof.Machine

/-! ### The result and the frame of the four-word instructions -/

/-- R31 to R34, R60: the four-word shape where its three operands are what the rules say. -/
theorem storeBinary_of_operands (f : Word → Word → Word) {m1 m2 m3 : Mode} {s : State} {a b : Word}
    {d : Nat} (ha : SourceValue s 1 m1 a) (hb : SourceValue s 2 m2 b) (hd : DestAddress s 3 m3 d) :
    storeBinary f m1 m2 m3 s =
      .next { s with mem := s.mem.write d (f a b), pc := wrap64 (s.pc.toInt + 4) } :=
  storeBinary_of_ok f m1 m2 m3 s a b d ((resolveSSD_eq_ok s m1 m2 m3 a b d).2 ⟨ha, hb, hd⟩)

/-- Settles O19: ADD is the four-word shape with `addWord`, the wrapped sum. -/
theorem addStoresTheWrappedSum : Obligations.AddStoresTheWrappedSum :=
  fun _ _ _ _ _ _ _ ha hb hd => storeBinary_of_operands addWord ha hb hd

/-- Settles O20: MUL is the four-word shape with `mulWord`, the wrapped product. -/
theorem mulStoresTheWrappedProduct : Obligations.MulStoresTheWrappedProduct :=
  fun _ _ _ _ _ _ _ ha hb hd => storeBinary_of_operands mulWord ha hb hd

/-- R60: whether it stores or takes an error, the four-word shape changes no register but `PC`, neither
queue, and none of the host's pending transactions. -/
theorem storeBinary_keeps {f : Word → Word → Word} {m1 m2 m3 : Mode} {s t : State}
    (h : storeBinary f m1 m2 m3 s = .next t) :
    t.rb = s.rb ∧ t.inQ = s.inQ ∧ t.outQ = s.outQ ∧ t.requests = s.requests := by
  rcases storeBinary_cases f m1 m2 m3 s t h with ⟨a, b, d, -, rfl⟩ | ⟨k, -, rfl⟩
  · exact ⟨rfl, rfl, rfl, rfl⟩
  · exact ⟨rfl, rfl, rfl, rfl⟩

/-- R40: every address but the one stored to reads as before. -/
theorem Effect.sameReadsBut {s t : State} {i : Instr} {d : Nat} (e : Effect s i t)
    (hd : storeAddr i s = some d) : SameReadsBut d s t := by
  intro a ha
  rcases e.mem_cases with hm | ⟨d', v, hd', hm⟩
  · rw [hm]
  · cases hd.symm.trans hd'
    rw [hm, Memory.read_write_other _ _ _ _ ha]

/-- R40: where nothing is stored, every address reads as before. -/
theorem Effect.sameReads {s t : State} {i : Instr} (e : Effect s i t) (hnone : storeAddr i s = none) :
    SameReads s t := by
  intro a
  rcases e.mem_cases with hm | ⟨d, v, hd, -⟩
  · rw [hm]
  · cases hd.symm.trans hnone

theorem storeAddr_fourWord {op : Mode → Mode → Mode → Instr}
    (hop : op = Instr.add ∨ op = Instr.mul ∨ op = Instr.lt ∨ op = Instr.eq) (m1 m2 m3 : Mode)
    (s : State) : storeAddr (op m1 m2 m3) s = storeAddrSSD s m1 m2 m3 := by
  rcases hop with rfl | rfl | rfl | rfl <;> rfl

/-- Settles O24: the registers and queues by the shared shape, memory by the one store an instruction
can make. -/
theorem fourWordFrame : Obligations.FourWordFrame := by
  intro op m1 m2 m3 s t hop hexec
  obtain ⟨f, hf⟩ := exists_exec_eq_storeBinary hop
  obtain ⟨hrb, hinQ, houtQ, hreq⟩ := storeBinary_keeps ((hf m1 m2 m3 s).symm.trans hexec)
  have e : Effect s (op m1 m2 m3) t := effect_of_exec hexec
  rw [← storeAddr_fourWord hop]
  exact ⟨hrb, hinQ, houtQ, hreq, fun _ hd => e.sameReadsBut hd, e.sameReads⟩

end Sys2Proof.Machine
end

section
namespace Sys2Proof.Machine

/-! ### IN: its result, its errors and its frame -/

/-- Settles O25: a destination address in the terms of R34 is what the operand fetch resolves to. -/
theorem inStoresTheOldestWord : Obligations.InStoresTheOldestWord :=
  fun m1 s v rest d hq hd => execInp_of_ok m1 s v rest d hq ((resolveD_eq_ok s m1 d).2 hd)

/-- R61, R104: with a word queued, IN takes the error of its operand, whatever the kind. -/
theorem execInp_returns_of_error {m1 : Mode} {s : State} {k : Fault} (hq : s.inQ ≠ [])
    (h : resolveD s m1 = .error k) : Returns (execInp m1 s) s (.fatal k) := by
  obtain ⟨v, rest, hcons⟩ := List.exists_cons_of_ne_nil hq
  exact execInp_of_error m1 s v rest k hcons h

/-- Settles O26: each error clause is one way in which the destination fails to resolve. -/
theorem inSuspendsThenChecksItsDestination : Obligations.InSuspendsThenChecksItsDestination := by
  intro m1 s
  have herr := resolveD_eq_error s m1
  refine ⟨execInp_nil m1 s, fun hq => ⟨fun hword => ?_, fun hword himm => ?_, fun hbad => ?_⟩⟩
  · exact execInp_returns_of_error hq ((herr _).2 (.inl ⟨rfl, .inl hword⟩))
  · exact execInp_returns_of_error hq ((herr _).2 (.inr ⟨rfl, hword, himm⟩))
  · exact execInp_returns_of_error hq ((herr _).2 (.inl ⟨rfl, .inr hbad⟩))

/-- R61: whether it suspends, stores or takes an error, IN changes neither `RB` nor the output queue,
and takes at most the front word of the input queue. -/
theorem execInp_keeps {m1 : Mode} {s t : State} (h : execInp m1 s = .next t) :
    t.rb = s.rb ∧ t.outQ = s.outQ ∧ t.requests = s.requests ∧
      (t.inQ = s.inQ ∨ ∃ v, s.inQ = v :: t.inQ) := by
  rcases execInp_cases m1 s t h with ⟨-, rfl⟩ | ⟨v, rest, d, hq, -, rfl⟩ | ⟨v, rest, k, -, -, rfl⟩
  · exact ⟨rfl, rfl, rfl, .inl rfl⟩
  · exact ⟨rfl, rfl, rfl, .inr ⟨v, hq⟩⟩
  · exact ⟨rfl, rfl, rfl, .inl rfl⟩

/-- Settles O27: the registers and queues by the cases of IN, memory by the one store an instruction
can make. -/
theorem inFrame : Obligations.InFrame := by
  intro m1 s t hexec
  obtain ⟨hrb, houtQ, hreq, hinQ⟩ := execInp_keeps hexec
  have e : Effect s (.inp m1) t := effect_of_exec hexec
  exact ⟨hrb, houtQ, hreq, hinQ, fun _ hd => e.sameReadsBut hd, e.sameReads⟩

/-! ### The result of OUT, and the one error of OUT and ARB -/

/-- Settles O28: a source value in the terms of R33 is what the operand fetch resolves to. -/
theorem outAppendsItsSource : Obligations.OutAppendsItsSource :=
  fun m1 s v hv => execOut_of_ok m1 s v ((resolveS_eq_ok s m1 v).2 hv)

/-- Settles O30: the two ways in which a source fails to resolve. -/
theorem oneSourceErrors : Obligations.OneSourceErrors := by
  intro op m1 s hop hfail
  have hr : resolveS s m1 = .error .invalidAddress := (resolveS_eq_error s m1 _).2 ⟨rfl, hfail⟩
  rcases hop with rfl | rfl
  · exact execOut_of_error m1 s _ hr
  · exact execArb_of_error m1 s _ hr

/-! ### The frames of the instructions that store nothing -/

/-- R40: an instruction without an address to store to leaves every word of memory, and the current
length. -/
theorem sameReads_and_len_of_exec {i : Instr} {s t : State} (h : exec i s = .next t)
    (hnone : storeAddr i s = none) : SameReads s t ∧ t.mem.len = s.mem.len := by
  have e : Effect s i t := effect_of_exec h
  refine ⟨e.sameReads hnone, ?_⟩
  rcases e.mem_cases with hm | ⟨d, v, hd, -⟩
  · rw [hm]
  · cases hd.symm.trans hnone

theorem execOut_keeps {m1 : Mode} {s t : State} (h : execOut m1 s = .next t) :
    t.rb = s.rb ∧ t.inQ = s.inQ ∧ t.requests = s.requests := by
  rcases execOut_cases m1 s t h with ⟨v, -, rfl⟩ | ⟨k, -, rfl⟩
  · exact ⟨rfl, rfl, rfl⟩
  · exact ⟨rfl, rfl, rfl⟩

theorem execArb_keeps {m1 : Mode} {s t : State} (h : execArb m1 s = .next t) :
    t.inQ = s.inQ ∧ t.outQ = s.outQ ∧ t.requests = s.requests := by
  rcases execArb_cases m1 s t h with ⟨v, -, rfl⟩ | ⟨k, -, rfl⟩
  · exact ⟨rfl, rfl, rfl⟩
  · exact ⟨rfl, rfl, rfl⟩

/-- R64, R65: taken or not, a jump changes no register but `PC`. -/
theorem jumpWhen_keeps {taken : Word → Bool} {m1 m2 : Mode} {s t : State}
    (h : jumpWhen taken m1 m2 s = .next t) :
    t.rb = s.rb ∧ t.inQ = s.inQ ∧ t.outQ = s.outQ ∧ t.requests = s.requests := by
  rcases jumpWhen_cases taken m1 m2 s t h with ⟨c, a, -, rfl⟩ | ⟨k, -, rfl⟩
  · split
    · exact ⟨rfl, rfl, rfl, rfl⟩
    · exact ⟨rfl, rfl, rfl, rfl⟩
  · exact ⟨rfl, rfl, rfl, rfl⟩

/-- R64, R65: JT and JF are one shape with two conditions. -/
theorem exists_exec_eq_jumpWhen {op : Mode → Mode → Instr} (hop : op = Instr.jt ∨ op = Instr.jf) :
    ∃ taken, ∀ m1 m2 s, exec (op m1 m2) s = jumpWhen taken m1 m2 s := by
  rcases hop with rfl | rfl
  · exact ⟨isTrue, fun _ _ _ => rfl⟩
  · exact ⟨fun c => !isTrue c, fun _ _ _ => rfl⟩

/-- R64, R65: the frame of JT and of JF. -/
theorem jump_frame {op : Mode → Mode → Instr} (hop : op = Instr.jt ∨ op = Instr.jf) {m1 m2 : Mode}
    {s t : State} (h : exec (op m1 m2) s = .next t) :
    SameReads s t ∧ t.mem.len = s.mem.len ∧ t.rb = s.rb ∧ t.inQ = s.inQ ∧ t.outQ = s.outQ ∧
      t.requests = s.requests := by
  obtain ⟨taken, htaken⟩ := exists_exec_eq_jumpWhen hop
  have hnone : storeAddr (op m1 m2) s = none := by rcases hop with rfl | rfl <;> rfl
  obtain ⟨hreads, hlen⟩ := sameReads_and_len_of_exec h hnone
  exact ⟨hreads, hlen, jumpWhen_keeps ((htaken m1 m2 s).symm.trans h)⟩

/-- Settles O35: memory by `storeAddr`, which gives these instructions no address; the registers and
queues by the cases of each. -/
theorem nonStoringFrames : Obligations.NonStoringFrames := by
  intro s t
  refine ⟨fun m1 h => ?out, fun m1 h => ?arb, fun m1 m2 h => ?jump, fun h => ?hlt⟩
  case out =>
    obtain ⟨hreads, hlen⟩ := sameReads_and_len_of_exec h rfl
    exact ⟨hreads, hlen, execOut_keeps h⟩
  case arb =>
    obtain ⟨hreads, hlen⟩ := sameReads_and_len_of_exec h rfl
    exact ⟨hreads, hlen, execArb_keeps h⟩
  case jump =>
    rcases h with h | h
    · exact jump_frame (.inl rfl) h
    · exact jump_frame (.inr rfl) h
  case hlt =>
    cases h
    exact ⟨fun _ => rfl, rfl, rfl, rfl, rfl, rfl, rfl⟩

end Sys2Proof.Machine
end

section
namespace Sys2Proof.Machine

/-! ### The result and the one error of JT and JF -/

/-- R64, R65: the jump shape where its two operands are what the rules say. -/
theorem jumpWhen_of_sources (taken : Word → Bool) {m1 m2 : Mode} {s : State} {c a : Word}
    (hc : SourceValue s 1 m1 c) (ha : SourceValue s 2 m2 a) :
    jumpWhen taken m1 m2 s =
      .next { s with pc := if taken c then a else wrap64 (s.pc.toInt + 3) } := by
  rw [jumpWhen_of_ok taken m1 m2 s c a ((resolveSS_eq_ok s m1 m2 c a).2 ⟨hc, ha⟩)]
  split
  · rfl
  · rfl

/-- R65: the condition of JF, any word but 0 being true. -/
theorem not_isTrue_iff (c : Word) : (!isTrue c) = true ↔ c = 0 := by
  rw [Bool.not_eq_true', ← Bool.not_eq_true, isTrue_iff, not_ne_iff]

/-- Settles O31: JT is the jump shape with the condition `c ≠ 0`. -/
theorem jtJumpsUnlessZero : Obligations.JtJumpsUnlessZero := by
  intro m1 m2 s c a hc ha
  have hjump : exec (.jt m1 m2) s = _ := jumpWhen_of_sources isTrue hc ha
  simp only [hjump, isTrue_iff, ne_eq, ite_not]

/-- Settles O32: JF is the jump shape with the condition `c = 0`. -/
theorem jfJumpsWhenZero : Obligations.JfJumpsWhenZero := by
  intro m1 m2 s c a hc ha
  have hjump : exec (.jf m1 m2) s = _ := jumpWhen_of_sources (fun c => !isTrue c) hc ha
  simp only [hjump, not_isTrue_iff]

/-- Settles O33: the ways in which two sources fail to resolve, which come before the condition is
looked at. -/
theorem jumpErrors : Obligations.JumpErrors := by
  intro op m1 m2 s hop hfail
  obtain ⟨taken, htaken⟩ := exists_exec_eq_jumpWhen hop
  have hr : resolveSS s m1 m2 = .error .invalidAddress :=
    (resolveSS_eq_error s m1 m2 _).2 ⟨rfl, hfail⟩
  exact (htaken m1 m2 s).trans (jumpWhen_of_error taken m1 m2 s _ hr)

end Sys2Proof.Machine
end

section
namespace Sys2Proof.Machine

/-! ### The results of LT and EQ -/

/-- R68: the comparison of signed values is the comparison of the words, which they determine. -/
theorem eqWord_eq_ite (a b : Word) : eqWord a b = if a = b then 1 else 0 := by
  simp only [eqWord, BitVec.toInt_inj]

/-- Settles O21: LT is the four-word shape with `ltWord`, the signed comparison. -/
theorem ltStoresTheSignedComparison : Obligations.LtStoresTheSignedComparison :=
  fun _ _ _ _ _ _ _ ha hb hd => storeBinary_of_operands ltWord ha hb hd

/-- Settles O22: EQ is the four-word shape with `eqWord`, the equality of the words. -/
theorem eqStoresTheEquality : Obligations.EqStoresTheEquality := by
  intro m1 m2 m3 s a b d ha hb hd
  have hstore : exec (.eq m1 m2 m3) s = _ := storeBinary_of_operands eqWord ha hb hd
  rw [hstore, eqWord_eq_ite]

end Sys2Proof.Machine
end

section
namespace Sys2Proof.Machine

/-! ### The result of ARB and of HLT -/

/-- Settles O29: a source value in the terms of R33 is what the operand fetch resolves to, `RB` being
written after it. -/
theorem arbAddsToTheRelativeBase : Obligations.ArbAddsToTheRelativeBase :=
  fun m1 s v hv => execArb_of_ok m1 s v ((resolveS_eq_ok s m1 v).2 hv)

/-- Settles O34: returning the run writes `call` alone. -/
theorem hltReturnsHalted : Obligations.HltReturnsHalted := fun _ => rfl

/-! ### A run called again -/

theorem State.setCall_of_call {s : State} {c : Call} (h : s.call = c) : s.setCall c = s := by
  subst h
  rfl

/-- R87, R90: pushing words is appending them, up to what the host was last answered. -/
theorem pushAll_setCall (ws : List Word) (s : State) (c : Call) :
    (pushAll ws s).setCall c = (s.setInQ (s.inQ ++ ws)).setCall c := by
  rw [pushAll_eq]
  split
  case isTrue hws =>
    rw [hws, List.append_nil]
    rfl
  case isFalse => rfl

/-- R75: a run has returned this outcome to the host. -/
abbrev RunReturned (t : State) (o : RunOutcome) : Prop := t.call = .returned (.outcome o)

/-- R73: an execute phase returns only by the error of its operands, which it returns again in every
state where they resolve alike. -/
theorem settle_returns_again {α : Type} {r : Except Fault α} {s t : State} {o : RunOutcome}
    (f g : α → State) (s' : State) (h : settle s (r.bind fun x => .ok (f x)) = .next t)
    (ht : RunReturned t o) (hf : ∀ x, (f x).call = .running) :
    Returns (settle s' (r.bind fun x => .ok (g x))) s' o := by
  cases r with
  | error k =>
    cases h
    cases ht
    rfl
  | ok x =>
    cases h
    cases (hf x).symm.trans ht

section
variable {s t : State} {o : RunOutcome} (hrun : s.call = .running) (ht : RunReturned t o)
include hrun ht

theorem storeBinary_returns_again {f : Word → Word → Word} {m1 m2 m3 : Mode} (q : List Word)
    (h : storeBinary f m1 m2 m3 s = .next t) :
    Returns (storeBinary f m1 m2 m3 (s.setInQ q)) (s.setInQ q) o :=
  settle_returns_again (r := resolveSSD s m1 m2 m3)
    (fun x => (s.setMem (s.mem.write x.2.2 (f x.1 x.2.1))).advance 4) _ (s.setInQ q)
    h ht fun _ => hrun

theorem jumpWhen_returns_again {taken : Word → Bool} {m1 m2 : Mode} (q : List Word)
    (h : jumpWhen taken m1 m2 s = .next t) :
    Returns (jumpWhen taken m1 m2 (s.setInQ q)) (s.setInQ q) o := by
  refine settle_returns_again (r := resolveSS s m1 m2)
    (fun x => if taken x.1 then s.setPc x.2 else s.advance 3)
    (fun x => if taken x.1 then (s.setInQ q).setPc x.2 else (s.setInQ q).advance 3) (s.setInQ q)
    h ht fun x => ?_
  split
  · exact hrun
  · exact hrun

/-- R61: IN alone looks at the queue, and sees no word pushed behind the first. -/
theorem execInp_returns_again {m1 : Mode} {ws : List Word} (hws : o = .awaitingInput → ws = [])
    (h : execInp m1 s = .next t) :
    Returns (execInp m1 (s.setInQ (s.inQ ++ ws))) (s.setInQ (s.inQ ++ ws)) o := by
  rcases execInp_cases m1 s t h with ⟨hq, rfl⟩ | ⟨v, rest, d, -, -, rfl⟩ | ⟨v, rest, k, hq, hr, rfl⟩
  · cases ht
    rw [hws rfl]
    exact execInp_nil m1 _ (by simp [hq])
  · cases hrun.symm.trans ht
  · cases ht
    exact execInp_of_error m1 _ v (rest ++ ws) k (by simp [hq]) hr

/-- R71, R78, R107: an instruction that returned does so again, with the same outcome, whatever words were
pushed; a suspended IN only if none was. -/
theorem exec_returns_again {i : Instr} {ws : List Word} (hws : o = .awaitingInput → ws = [])
    (h : exec i s = .next t) :
    Returns (exec i (s.setInQ (s.inQ ++ ws))) (s.setInQ (s.inQ ++ ws)) o := by
  cases i with
  | add m1 m2 m3 => exact storeBinary_returns_again hrun ht _ h
  | mul m1 m2 m3 => exact storeBinary_returns_again hrun ht _ h
  | lt m1 m2 m3 => exact storeBinary_returns_again hrun ht _ h
  | eq m1 m2 m3 => exact storeBinary_returns_again hrun ht _ h
  | inp m1 => exact execInp_returns_again hrun ht hws h
  | out m1 => exact settle_returns_again (r := resolveS s m1) _ _ _ h ht fun _ => hrun
  | arb m1 => exact settle_returns_again (r := resolveS s m1) _ _ _ h ht fun _ => hrun
  | jt m1 m2 => exact jumpWhen_returns_again hrun ht _ h
  | jf m1 m2 => exact jumpWhen_returns_again (taken := fun c => !isTrue c) hrun ht _ h
  | hlt =>
    cases h
    cases ht
    rfl

/-- R71, R78, R107: the same of a step of a run; neither the fetch nor the decoder looks at the queue. -/
theorem step_returns_again {ws : List Word} (hws : o = .awaitingInput → ws = [])
    (hs : step s = .next t) :
    Returns (step (s.setInQ (s.inQ ++ ws))) (s.setInQ (s.inQ ++ ws)) o := by
  rw [step_of_running s hrun] at hs
  rw [step_of_running (s.setInQ (s.inQ ++ ws)) hrun]
  rcases engineStep_cases s t hs with ⟨k, hf, rfl⟩ | ⟨i, hf, he⟩
  · cases ht
    exact engineStep_of_error (s.setInQ (s.inQ ++ ws)) k hf
  · rw [engineStep_of_ok (s.setInQ (s.inQ ++ ws)) i hf]
    exact exec_returns_again hrun ht hws he

/-- R72, R105: a step of a run that returns changes nothing but the outcome. -/
theorem eq_returnRun_of_step (hs : step s = .next t) : t = returnRun o s := by
  have hagain := step_returns_again hrun ht (ws := []) (fun _ => rfl) hs
  rw [List.append_nil] at hagain
  cases hs.symm.trans hagain
  rfl

end

/-- Settles O16: resuming gives back the state the step returned from, with the pushed words at the back
of its queue. -/
theorem runAgainReturnsTheSameOutcome : Obligations.RunAgainReturnsTheSameOutcome := by
  intro s t o hrun hs ht
  cases eq_returnRun_of_step hrun ht hs
  constructor
  · have hresume : resume (returnRun o s) = s := State.setCall_of_call hrun
    rw [hresume, hs]
  · intro ho ws
    have hresume : resume (pushAll ws (returnRun o s)) = s.setInQ (s.inQ ++ ws) :=
      (pushAll_setCall ws _ .running).trans (State.setCall_of_call (s := s.setInQ _) hrun)
    rw [hresume, pushAll_setCall]
    exact step_returns_again hrun ht (fun h => absurd h ho) hs

end Sys2Proof.Machine
end

section
namespace Sys2Proof.Machine

/-! ### How a step of a run ends -/

/-- Settles O10: the fetch and the decoder answer `i`, and the engine calls its meaning. -/
theorem stepRunsTheDecodedInstruction : Obligations.StepRunsTheDecodedInstruction :=
  fun _ _ hrun hpc hdec => step_of_decode hrun hpc hdec

theorem engineStep_next (s : State) : ∃ t, engineStep s = .next t := by
  cases hf : fetchDecode s with
  | error k => exact ⟨_, engineStep_of_error s k hf⟩
  | ok i =>
    rw [engineStep_of_ok s i hf]
    exact exec_next i s

/-- Settles O11: by whose move it is. -/
theorem everyStepAnswersANextState : Obligations.EveryStepAnswersANextState := by
  intro s
  by_cases hrun : s.call = .running
  · rw [step_of_running s hrun]
    exact engineStep_next s
  · exact ⟨_, step_of_host s hrun⟩

/-- R74 to R77: what has to stand at `PC` for the step at `s` to end the run in each of the three
kinds of outcome. An error has many causes, none of which is named here. -/
inductive RunEnds (s : State) : RunOutcome → Prop where
  | halted (hf : fetchDecode s = .ok .hlt) : RunEnds s .halted
  | awaitingInput {m1 : Mode} (hf : fetchDecode s = .ok (.inp m1)) (hq : s.inQ = []) :
      RunEnds s .awaitingInput
  | fatal (k : Fault) : RunEnds s (.fatal k)

/-- R72: an instruction that has been fetched leaves the run in progress, or ends it and changes
nothing else. -/
theorem exec_goes_on_or_ends {i : Instr} {s t : State} (hrun : s.call = .running)
    (hf : fetchDecode s = .ok i) (h : exec i s = .next t) :
    t.call = .running ∨ ∃ o, t = returnRun o s ∧ RunEnds s o := by
  rcases exec_cases i s t h with ⟨k, rfl⟩ | ⟨rfl, rfl⟩ | ⟨m1, rfl, hq, rfl⟩ |
    ⟨m1, m2, m3, a, b, d, f, -, -, rfl⟩ | ⟨m1, v, rest, d, -, -, -, rfl⟩ |
    ⟨m1, v, -, -, rfl⟩ | ⟨m1, v, -, -, rfl⟩ | ⟨m1, m2, c, a, -, -, rfl | rfl⟩
  case inl => exact .inr ⟨_, rfl, .fatal k⟩
  case inr.inl => exact .inr ⟨_, rfl, .halted hf⟩
  case inr.inr.inl => exact .inr ⟨_, rfl, .awaitingInput hf hq⟩
  all_goals exact .inl hrun

/-- R72: a step of a run goes on, or ends the run and changes nothing else. -/
theorem running_step_goes_on_or_ends {s t : State} (hrun : s.call = .running)
    (hs : step s = .next t) :
    t.call = .running ∨ ∃ o, t = returnRun o s ∧ RunEnds s o := by
  rw [step_of_running s hrun] at hs
  rcases engineStep_cases s t hs with ⟨k, -, rfl⟩ | ⟨i, hf, he⟩
  · exact .inr ⟨_, rfl, .fatal k⟩
  · exact exec_goes_on_or_ends hrun hf he

/-- R75: the outcome a run has returned is the one its last step ended in. -/
theorem runEnds_of_step {s t : State} {o : RunOutcome} (hrun : s.call = .running)
    (hs : step s = .next t) (ht : RunReturned t o) : RunEnds s o := by
  rcases running_step_goes_on_or_ends hrun hs with hgo | ⟨o', rfl, hend⟩
  · cases hgo.symm.trans ht
  · cases ht
    exact hend

/-- Settles O12: a step goes on or ends the run, and no instruction has the pending transactions among
its effects. -/
theorem stepsThatReturnChangeNothing : Obligations.StepsThatReturnChangeNothing := by
  intro s t hrun hs
  refine ⟨running_step_requests hrun hs, ?_⟩
  rcases running_step_goes_on_or_ends hrun hs with hgo | ⟨o, ht, -⟩
  · exact .inl hgo
  · exact .inr ⟨o, ht⟩

/-- Settles O13: HLT is the one way for a run to end in Halted; beyond the image stands the word 0, of
no known opcode. -/
theorem haltedExactlyAtHlt : Obligations.HaltedExactlyAtHlt := by
  refine ⟨fun s hrun => ⟨?_, ?_⟩, fun s hrun hpc hlen => ?_⟩
  · rintro ⟨t, hs, ht⟩
    cases runEnds_of_step hrun hs ht with
    | halted hf => exact (fetchDecode_eq_ok s .hlt).1 hf
  · rintro ⟨hpc, hdec⟩
    exact ⟨_, step_of_decode hrun hpc hdec, rfl⟩
  · obtain ⟨-, hbeyond⟩ := unknownOpcodeIsInvalidOpcode
    exact (hbeyond s hrun hpc hlen).2

/-- R61, R77: the step at an IN with nothing queued suspends. -/
theorem step_of_empty_in {s : State} {m1 : Mode} (hrun : s.call = .running) (hpc : 0 ≤ s.pc.toInt)
    (hdec : decode (s.mem.read s.pc.toNat) = .ok (.inp m1)) (hq : s.inQ = []) :
    step s = .next (returnRun .awaitingInput s) :=
  (step_of_decode hrun hpc hdec).trans (execInp_nil m1 s hq)

/-- Settles O14: IN with nothing queued is the one way for a run to end in AwaitingInput, and a run
that ends changes nothing else. -/
theorem awaitingInputExactlyAtEmptyIn : Obligations.AwaitingInputExactlyAtEmptyIn := by
  refine fun s hrun => ⟨⟨?_, ?_⟩, fun t hs ht => ?_⟩
  · rintro ⟨t, hs, ht⟩
    cases runEnds_of_step hrun hs ht with
    | @awaitingInput m1 hf hq =>
      obtain ⟨hpc, hdec⟩ := (fetchDecode_eq_ok s (.inp m1)).1 hf
      exact ⟨hpc, ⟨m1, hdec⟩, hq⟩
  · rintro ⟨hpc, ⟨m1, hdec⟩, hq⟩
    exact ⟨_, step_of_empty_in hrun hpc hdec hq, rfl⟩
  · cases runEnds_of_step hrun hs ht with
    | awaitingInput _ hq =>
      cases eq_returnRun_of_step hrun ht hs
      exact ⟨rfl, rfl, rfl, rfl, rfl, hq⟩

/-! ### Resuming with input -/

/-- R87: a state with words pushed behind its input, whoever's move it is. -/
abbrev State.appendInQ (s : State) (ws : List Word) : State := s.setInQ (s.inQ ++ ws)

/-- R78, R90: pushing words after a run has ended and running again is going on from the state in
which the run ended, with the words behind its input. -/
theorem resume_pushAll_returnRun {s : State} (hrun : s.call = .running) (o : RunOutcome)
    (ws : List Word) : resume (pushAll ws (returnRun o s)) = s.appendInQ ws :=
  (pushAll_setCall ws (returnRun o s) .running).trans
    (State.setCall_of_call (s := s.appendInQ ws) hrun)

/-- Settles O15: resuming gives back the state of the suspended IN, which suspends again, or finds the
pushed words in its queue. -/
theorem resumedInConsumesTheOldestWord : Obligations.ResumedInConsumesTheOldestWord := by
  intro s t m1 hrun hpc hdec hq hs
  cases hs.symm.trans (step_of_empty_in hrun hpc hdec hq)
  constructor
  · obtain ⟨hagain, -⟩ := runAgainReturnsTheSameOutcome s _ .awaitingInput hrun hs rfl
    exact hagain
  · intro v rest d hd
    rw [resume_pushAll_returnRun hrun, State.appendInQ, hq, List.nil_append,
      step_of_decode (s := s.setInQ (v :: rest)) hrun hpc hdec]
    exact inStoresTheOldestWord m1 (s.setInQ (v :: rest)) v rest d rfl hd

end Sys2Proof.Machine
end

section
namespace Sys2Proof.Machine

/-! ### The run loop -/

theorem runLoop_returnRun (n : Nat) (o : RunOutcome) (s : State) :
    runLoop n (returnRun o s) = some (returnRun o s) := by
  cases n with
  | zero => rfl
  | succ n => rfl

theorem runLoop_zero_of_running {s : State} (hrun : s.call = .running) : runLoop 0 s = none := by
  simp only [runLoop, hrun]

theorem runLoop_succ_of_step {s t : State} (hrun : s.call = .running) (hs : step s = .next t)
    (n : Nat) : runLoop (n + 1) s = runLoop n t := by
  simp only [runLoop, hrun, hs]

/-- R74: the run in progress in `s` returns in `t` with its `k`-th step. That step ends the run and
changes nothing else, and every step before it goes on. -/
inductive RunsTo : Nat → State → State → Prop where
  | last {s : State} {o : RunOutcome} (hrun : s.call = .running)
      (hs : step s = .next (returnRun o s)) : RunsTo 1 s (returnRun o s)
  | goesOn {k : Nat} {s s' t : State} (hrun : s.call = .running) (hs : step s = .next s')
      (rest : RunsTo k s' t) : RunsTo (k + 1) s t

theorem RunsTo.running {k : Nat} {s t : State} (h : RunsTo k s t) : s.call = .running := by
  cases h with
  | last hrun _ => exact hrun
  | goesOn hrun _ _ => exact hrun

/-- R74: the run loop returns only where the run does. -/
theorem runsTo_of_runLoop {n : Nat} {s t : State} (hrun : s.call = .running)
    (h : runLoop n s = some t) : ∃ k ≤ n, RunsTo k s t := by
  induction n generalizing s with
  | zero => cases (runLoop_zero_of_running hrun).symm.trans h
  | succ n ih =>
    obtain ⟨s', hs⟩ := everyStepAnswersANextState s
    rw [runLoop_succ_of_step hrun hs] at h
    rcases running_step_goes_on_or_ends hrun hs with hrun' | ⟨o, rfl, -⟩
    · obtain ⟨k, hk, hruns⟩ := ih hrun' h
      exact ⟨k + 1, Nat.succ_le_succ hk, .goesOn hrun hs hruns⟩
    · cases (runLoop_returnRun n o s).symm.trans h
      exact ⟨1, Nat.le_add_left 1 n, .last hrun hs⟩

/-- R74, R81: every bound that reaches the last step gives the state the run returns in. -/
theorem RunsTo.runLoop_eq {k : Nat} {s t : State} (h : RunsTo k s t) (n : Nat) :
    runLoop (n + k) s = some t := by
  induction h with
  | last hrun hs => exact (runLoop_succ_of_step hrun hs n).trans (runLoop_returnRun n _ _)
  | goesOn hrun hs _ ih => exact (runLoop_succ_of_step hrun hs _).trans ih

theorem RunsTo.runReturned {k : Nat} {s t : State} (h : RunsTo k s t) : ∃ o, RunReturned t o := by
  induction h with
  | last _ _ => exact ⟨_, rfl⟩
  | goesOn _ _ _ ih => exact ih

theorem RunsTo.requests {k : Nat} {s t : State} (h : RunsTo k s t) : t.requests = s.requests := by
  induction h with
  | last _ _ => rfl
  | goesOn hrun hs _ ih => exact ih.trans (running_step_requests hrun hs)

/-- Settles O44: the run loop returns where the run does, with the outcome of the last step. -/
theorem aRunEndsInAnOutcomeOfItsOwn : Obligations.ARunEndsInAnOutcomeOfItsOwn := by
  intro n s t hrun h
  obtain ⟨k, hk, hruns⟩ := runsTo_of_runLoop hrun h
  refine ⟨hruns.runReturned, fun m hm => ?_, hruns.requests⟩
  obtain ⟨j, rfl⟩ := Nat.exists_eq_add_of_le' (hk.trans hm)
  exact hruns.runLoop_eq j

/-! ### Input that is not yet needed -/

section
variable {s t : State} {m1 m2 m3 : Mode} (ws : List Word) (ht : t.call = .running)
include ht

theorem storeBinary_appendInQ {f : Word → Word → Word} (h : storeBinary f m1 m2 m3 s = .next t) :
    storeBinary f m1 m2 m3 (s.appendInQ ws) = .next (t.appendInQ ws) := by
  rcases storeBinary_cases f m1 m2 m3 s t h with ⟨a, b, d, hr, rfl⟩ | ⟨k, -, rfl⟩
  · exact storeBinary_of_ok f m1 m2 m3 (s.appendInQ ws) a b d hr
  · cases ht

theorem jumpWhen_appendInQ {taken : Word → Bool} (h : jumpWhen taken m1 m2 s = .next t) :
    jumpWhen taken m1 m2 (s.appendInQ ws) = .next (t.appendInQ ws) := by
  rcases jumpWhen_cases taken m1 m2 s t h with ⟨c, a, hr, rfl⟩ | ⟨k, -, rfl⟩
  · rw [jumpWhen_of_ok taken m1 m2 (s.appendInQ ws) c a hr]
    split
    · rfl
    · rfl
  · cases ht

theorem execInp_appendInQ (h : execInp m1 s = .next t) :
    execInp m1 (s.appendInQ ws) = .next (t.appendInQ ws) := by
  rcases execInp_cases m1 s t h with ⟨-, rfl⟩ | ⟨v, rest, d, hq, hr, rfl⟩ | ⟨v, rest, k, -, -, rfl⟩
  · cases ht
  · have hq' : (s.appendInQ ws).inQ = v :: (rest ++ ws) := congrArg (· ++ ws) hq
    exact execInp_of_ok m1 (s.appendInQ ws) v (rest ++ ws) d hq' hr
  · cases ht

theorem execOut_appendInQ (h : execOut m1 s = .next t) :
    execOut m1 (s.appendInQ ws) = .next (t.appendInQ ws) := by
  rcases execOut_cases m1 s t h with ⟨v, hr, rfl⟩ | ⟨k, -, rfl⟩
  · exact execOut_of_ok m1 (s.appendInQ ws) v hr
  · cases ht

theorem execArb_appendInQ (h : execArb m1 s = .next t) :
    execArb m1 (s.appendInQ ws) = .next (t.appendInQ ws) := by
  rcases execArb_cases m1 s t h with ⟨v, hr, rfl⟩ | ⟨k, -, rfl⟩
  · exact execArb_of_ok m1 (s.appendInQ ws) v hr
  · cases ht

/-- R61, R63: an instruction that goes on does the same with more words behind the input, and leaves
them there. -/
theorem exec_appendInQ {i : Instr} (h : exec i s = .next t) :
    exec i (s.appendInQ ws) = .next (t.appendInQ ws) := by
  cases i with
  | add m1 m2 m3 => exact storeBinary_appendInQ ws ht h
  | mul m1 m2 m3 => exact storeBinary_appendInQ ws ht h
  | lt m1 m2 m3 => exact storeBinary_appendInQ ws ht h
  | eq m1 m2 m3 => exact storeBinary_appendInQ ws ht h
  | inp m1 => exact execInp_appendInQ ws ht h
  | out m1 => exact execOut_appendInQ ws ht h
  | arb m1 => exact execArb_appendInQ ws ht h
  | jt m1 m2 => exact jumpWhen_appendInQ ws ht h
  | jf m1 m2 => exact jumpWhen_appendInQ (taken := fun c => !isTrue c) ws ht h
  | hlt =>
    cases h
    cases ht

/-- R82: the same of a step of a run. -/
theorem step_appendInQ (hrun : s.call = .running) (hs : step s = .next t) :
    step (s.appendInQ ws) = .next (t.appendInQ ws) := by
  rw [step_of_running s hrun] at hs
  rw [step_of_running (s.appendInQ ws) hrun]
  rcases engineStep_cases s t hs with ⟨k, -, rfl⟩ | ⟨i, hf, he⟩
  · cases ht
  · rw [engineStep_of_ok (s.appendInQ ws) i hf]
    exact exec_appendInQ ws ht he

end

/-- R78, R82, P2: whatever the first of two runs ended in, the second, with `ws` pushed before it, is
the rest of one run with `ws` queued from the start. -/
theorem RunsTo.runLoop_appendInQ {k : Nat} {s t : State} (h : RunsTo k s t) {ws : List Word}
    {m : Nat} {u : State} (hu : runLoop m (resume (pushAll ws t)) = some u) :
    ∃ n, runLoop n (s.appendInQ ws) = some u := by
  induction h with
  | last hrun _ =>
    rw [resume_pushAll_returnRun hrun] at hu
    exact ⟨m, hu⟩
  | @goesOn k s s' t hrun hs rest ih =>
    obtain ⟨n, hn⟩ := ih hu
    have hs' := step_appendInQ ws rest.running hrun hs
    exact ⟨n + 1, (runLoop_succ_of_step (s := s.appendInQ ws) hrun hs' n).trans hn⟩

/-- Settles O43: a suspension is one of the ways in which the first run may end. -/
theorem inputStagingDoesNotMatter : Obligations.InputStagingDoesNotMatter := by
  intro n s t hrun h _ ws m u hu
  obtain ⟨k, -, hruns⟩ := runsTo_of_runLoop hrun h
  exact hruns.runLoop_appendInQ hu

end Sys2Proof.Machine
end

section
namespace Sys2Proof.Machine

/-! ### The host's transactions -/

/-- R83: with no run in progress, a step performs the host's oldest transaction. -/
theorem step_of_request {s : State} {r : Transaction} {rest : List Transaction}
    (hcall : s.call ≠ .running) (hreq : s.requests = r :: rest) :
    step s = .next (perform r (s.setRequests rest)) := by
  rw [step_of_host s hcall, hostMove_cons hreq]

/-- R24, R85: peek at an address that is not negative. -/
theorem hostPeek_of_nonneg {a : Word} (ha : 0 ≤ a.toInt) (s : State) :
    hostPeek a s = reply (.word (s.mem.read a.toNat)) s := by
  have hread : memRead s.mem a.toInt = .ok (s.mem.read a.toNat) :=
    (memRead_eq_ok _ _ _).2 ⟨ha, toInt_le_addrMax a, by rw [toNat_of_nonneg a ha]⟩
  simp only [hostPeek, hread]

/-- R24, R92: peek at a negative address. -/
theorem hostPeek_of_neg {a : Word} (ha : a.toInt < 0) (s : State) :
    hostPeek a s = reply (.error .invalidAddress) s := by
  have hread : memRead s.mem a.toInt = .error .invalidAddress :=
    (memRead_eq_error _ _ _).2 ⟨rfl, fun h => absurd h.1 (not_le.2 ha)⟩
  simp only [hostPeek, hread]

/-- R24, R86: poke at an address that is not negative. -/
theorem hostPoke_of_nonneg {a : Word} (ha : 0 ≤ a.toInt) (v : Word) (s : State) :
    hostPoke a v s = reply .done (s.setMem (s.mem.write a.toNat v)) := by
  have hwrite : memWrite s.mem a.toInt v = .ok (s.mem.write a.toNat v) :=
    (memWrite_eq_ok _ _ _ _).2 ⟨ha, toInt_le_addrMax a, by rw [toNat_of_nonneg a ha]⟩
  simp only [hostPoke, hwrite]

/-- R24, R92: poke at a negative address. -/
theorem hostPoke_of_neg {a : Word} (ha : a.toInt < 0) (v : Word) (s : State) :
    hostPoke a v s = reply (.error .invalidAddress) s := by
  have hwrite : memWrite s.mem a.toInt v = .error .invalidAddress :=
    (memWrite_eq_error _ _ _ _).2 ⟨rfl, fun h => absurd h.1 (not_le.2 ha)⟩
  simp only [hostPoke, hwrite]

/-- R28 with D11: the length after a store is the least that holds both the old cells and the new. -/
theorem Memory.len_write_eq_max (m : Memory) (a : Nat) (v : Word) :
    (m.write a v).len = max m.len (a + 1) := by
  rw [Memory.len_write]
  split <;> omega

/-- Settles O50: the host's move is `MemRead`, whose only error is a negative address. -/
theorem peekReadsOneWord : Obligations.PeekReadsOneWord := by
  intro s a rest hcall hreq
  have hstep : step s = .next (hostPeek a (s.setRequests rest)) := step_of_request hcall hreq
  constructor
  · intro ha
    rw [hstep, hostPeek_of_nonneg ha]
    rfl
  · intro ha
    rw [hstep, hostPeek_of_neg ha]
    rfl

/-- Settles O51: the host's move is one store, by the laws of `Memory.write`. -/
theorem pokeStoresOneWord : Obligations.PokeStoresOneWord := by
  intro s a v rest hcall hreq
  have hstep : step s = .next (hostPoke a v (s.setRequests rest)) := step_of_request hcall hreq
  constructor
  · intro ha
    rw [hstep, hostPoke_of_nonneg ha]
    exact ⟨_, rfl, fun b => s.mem.read_write a.toNat b v, s.mem.len_write_eq_max a.toNat v,
      rfl, rfl, rfl, rfl, rfl, rfl⟩
  · intro ha
    rw [hstep, hostPoke_of_neg ha]
    rfl

/-- Settles O52: the host's move writes `InQ` and its own answer. -/
theorem pushInputAppends : Obligations.PushInputAppends :=
  fun _ _ _ hcall hreq => step_of_request hcall hreq

/-- Settles O54: `clear_output` writes `OutQ` and its own answer, `run` the call alone. -/
theorem clearOutputAndRun : Obligations.ClearOutputAndRun :=
  ⟨fun _ _ hcall hreq => step_of_request hcall hreq,
    fun _ _ hcall hreq => step_of_request hcall hreq⟩

/-- Settles O56: a relay is a clear of the giver and a push of the giver's output into the taker. -/
theorem relayKeepsTheOrder : Obligations.RelayKeepsTheOrder := by
  refine fun a b => ⟨fun ha hb => ?_, relay_of_running a b⟩
  exact ⟨pushAll a.outQ b, relay_of_host a b ha hb, pushAll_inQ _ b, pushAll_mem _ b, pushAll_pc _ b,
    pushAll_rb _ b, pushAll_outQ _ b, pushAll_requests _ b, pushAll_call_ne_running _ b hb⟩

/-! ### Draining the output queue -/

/-- R88: the whole effect of a drain as the host's move. -/
theorem step_of_drainOutput {s : State} {rest : List Transaction} (hcall : s.call ≠ .running)
    (hreq : s.requests = .drainOutput :: rest) :
    step s = .next { s with call := .returned (.output s.outQ), requests := rest } :=
  step_of_request hcall hreq

/-- R83, R88: a drain that waits behind transactions other than run, clear_output and build returns the
output queue of before them. -/
theorem core_run_to_drainOutput {s : State} {between rest : List Transaction}
    (hcall : s.call ≠ .running) (hreq : s.requests = between ++ .drainOutput :: rest)
    (hkeep : ∀ r ∈ between, r ≠ .run ∧ r ≠ .clearOutput ∧ ∀ image, r ≠ .build image) :
    ∃ u : State, core.run (between.length + 1) s = .next u ∧
      u.call = .returned (.output s.outQ) ∧ u.outQ = s.outQ ∧ u.requests = rest := by
  induction between generalizing s with
  | nil => exact ⟨_, core_run_succ core 0 s _ (step_of_drainOutput hcall hreq), rfl, rfl, rfl⟩
  | cons r between ih =>
    obtain ⟨hr, hbetween⟩ := List.forall_mem_cons.1 hkeep
    have hstep := step_of_request hcall hreq
    obtain ⟨hout, hreq', hcall'⟩ :=
      perform_keeps_output r (s.setRequests (between ++ .drainOutput :: rest)) hr
    obtain ⟨u, hrun, hu⟩ := ih hcall' hreq' hbetween
    rw [hout] at hu
    exact ⟨u, (core_run_succ core _ s _ hstep).trans hrun, hu⟩

/-- R15: a step of a run only appends to the output queue. -/
theorem running_step_outQ_isPrefix {s t : State} (hrun : s.call = .running) (hs : step s = .next t) :
    s.outQ <+: t.outQ := by
  rcases outputOnlyGrowsByOut s t hrun hs with hout | ⟨m1, v, -, hout⟩
  · rw [hout]
  · exact ⟨[v], hout.symm⟩

/-- R15: a run only appends to the output queue. -/
theorem RunsTo.outQ_isPrefix {k : Nat} {s t : State} (h : RunsTo k s t) : s.outQ <+: t.outQ := by
  induction h with
  | last hrun hs => exact running_step_outQ_isPrefix hrun hs
  | goesOn hrun hs _ ih => exact (running_step_outQ_isPrefix hrun hs).trans ih

/-- Settles O53: a drain by the host's move, a second drain by induction on the transactions before it,
and a further run by the steps it takes, each of which only appends. -/
theorem drainOutputLeavesTheQueue : Obligations.DrainOutputLeavesTheQueue := by
  refine ⟨fun s rest => step_of_drainOutput, fun s between rest hcall hreq hkeep => ?again,
    fun n s t hrun h => ?run⟩
  case again =>
    have hstep := step_of_drainOutput hcall hreq
    obtain ⟨u, hrun, hcall', hout, hreq'⟩ := core_run_to_drainOutput (rest := rest)
      (s := { s with
        call := .returned (.output s.outQ), requests := between ++ .drainOutput :: rest })
      nofun rfl hkeep
    exact ⟨_, u, hstep, hrun, rfl, hcall', hout, hreq'⟩
  case run =>
    obtain ⟨k, -, hruns⟩ := runsTo_of_runLoop hrun h
    obtain ⟨new, hnew⟩ := hruns.outQ_isPrefix
    exact ⟨new, hnew.symm⟩

end Sys2Proof.Machine
end

section
namespace Sys2Proof.Machine

/-! ### The order of errors of the four-word instructions -/

section
variable {s : State} {m1 m2 : Mode}

/-- R33: two operand words that are there, and name no bad address, give two source values. -/
theorem exists_resolveSS_eq_ok (h1 : ValidAddress (operandAddress s 1))
    (h2 : ValidAddress (operandAddress s 2)) (hb1 : ¬ BadAddress s 1 m1)
    (hb2 : ¬ BadAddress s 2 m2) : ∃ a b, resolveSS s m1 m2 = .ok (a, b) := by
  cases hr : resolveSS s m1 m2 with
  | ok ab => exact ⟨ab.1, ab.2, rfl⟩
  | error k =>
    obtain ⟨-, hfail⟩ := (resolveSS_eq_error s m1 m2 k).1 hr
    rcases hfail with h | h | h | h
    exacts [absurd h1 h, absurd h2 h, absurd h hb1, absurd h hb2]

/-- R104: what keeps the two sources from resolving comes first, whatever the destination is. -/
theorem resolveSSD_eq_invalidAddress_of_sources (m3 : Mode)
    (hfail : ¬ ValidAddress (operandAddress s 1) ∨ ¬ ValidAddress (operandAddress s 2) ∨
      BadAddress s 1 m1 ∨ BadAddress s 2 m2) :
    resolveSSD s m1 m2 m3 = .error .invalidAddress := by
  by_cases h3 : ValidAddress (operandAddress s 3)
  · exact (resolveSSD_eq_error s m1 m2 m3 _ h3).2
      (.inl ((resolveSS_eq_error s m1 m2 _).2 ⟨rfl, hfail⟩))
  · exact resolveSSD_no_word3 s m1 m2 m3 h3

/-- R104, item 5: an operand word out of the address range. -/
theorem resolveSSD_eq_invalidAddress_of_words (m3 : Mode)
    (hwords : ¬ (ValidAddress (operandAddress s 1) ∧ ValidAddress (operandAddress s 2) ∧
      ValidAddress (operandAddress s 3))) :
    resolveSSD s m1 m2 m3 = .error .invalidAddress := by
  by_cases h1 : ValidAddress (operandAddress s 1)
  · by_cases h2 : ValidAddress (operandAddress s 2)
    · exact resolveSSD_no_word3 s m1 m2 m3 fun h3 => hwords ⟨h1, h2, h3⟩
    · exact resolveSSD_eq_invalidAddress_of_sources m3 (.inr (.inl h2))
  · exact resolveSSD_eq_invalidAddress_of_sources m3 (.inl h1)

end

/-- Settles O23: each clause is one way in which the operands fail to resolve, and the four-word shape
takes whatever error that is. -/
theorem fourWordErrorsInOrder : Obligations.FourWordErrorsInOrder := by
  intro op m1 m2 m3 s hop
  obtain ⟨f, hf⟩ := exists_exec_eq_storeBinary hop
  have htakes {k : Fault} (h : resolveSSD s m1 m2 m3 = .error k) :
      Returns (exec (op m1 m2 m3) s) s (.fatal k) :=
    (hf m1 m2 m3 s).trans (storeBinary_of_error f m1 m2 m3 s k h)
  refine ⟨fun hwords => ?words, fun h1 h2 h3 => ⟨fun hbad => ?sources, fun hb1 hb2 => ?dest⟩⟩
  case words => exact htakes (resolveSSD_eq_invalidAddress_of_words m3 hwords)
  case sources => exact htakes (resolveSSD_eq_invalidAddress_of_sources m3 (.inr (.inr hbad)))
  case dest =>
    have hsources := exists_resolveSS_eq_ok h1 h2 hb1 hb2
    have hdst {k : Fault} (h : dst s m3 (operandAt s 3) = .error k) :
        Returns (exec (op m1 m2 m3) s) s (.fatal k) :=
      htakes ((resolveSSD_eq_error s m1 m2 m3 k h3).2 (.inr ⟨hsources, h⟩))
    have herr := dst_eq_error s 3 m3
    exact ⟨fun himm => hdst ((herr _ h3).2 (.inl ⟨rfl, himm⟩)),
      fun hbad => hdst ((herr _ h3).2 (.inr ⟨rfl, hbad⟩))⟩

/-! ### The idle step -/

/-- Settles O55: the step is the host's move, and with nothing pending that changes nothing. -/
theorem anIdleInstanceKeepsItsState : Obligations.AnIdleInstanceKeepsItsState := by
  intro s hcall hreq
  rw [step_of_host s hcall, hostMove_nil hreq]

/-! ### The sample words -/

/-- Settles O1: each sample word is the encoding of its instruction. -/
theorem decodeReadsSampleWords : Obligations.DecodeReadsSampleWords :=
  ⟨decode_encode (.add .pointer .pointer .pointer),
    decode_encode (.mul .pointer .immediate .pointer),
    decode_encode (.inp .relative),
    decode_encode (.out .immediate),
    decode_encode (.jt .relative .immediate),
    decode_encode (.jf .immediate .relative),
    decode_encode (.lt .immediate .immediate .relative),
    decode_encode (.eq .pointer .immediate .pointer),
    decode_encode (.arb .immediate),
    decode_encode .hlt⟩

end Sys2Proof.Machine
end
